-- ==== Sys2Proof/Word.lean ====
section
/-! DEFINITION. The word types of 00_scope.md R7, R8: a byte, the 32-bit word of MUR32, X86_128, headers, payload and
responses, the 64-bit word of X64_128 and COUNT, and the 128-bit registers ACC, SEED and DIGEST (10_state.md R20).
Every value is unsigned and all arithmetic on them is BitVec's, modulo `2 ^ W` (R9). -/

namespace Sys2Proof

/-- One byte of BUF, of a PUT payload or of a digest. -/
abbrev Byte := BitVec 8

/-- The 32-bit word (`W32` of R7). -/
abbrev Word := BitVec 32

/-- The 64-bit word (`W64` of R7). -/
abbrev Word64 := BitVec 64

/-- The width of ACC, SEED and DIGEST (R20). -/
abbrev Reg128 := BitVec 128

end Sys2Proof
end

