-- ==== Sys2Proof/Config.lean ====
section
/-! DEFINITION. What an implementation fixes (00_scope.md R7, R15): the types of the parameters and of the lane views.
The values this hardware takes are in Machine/Params.lean. There is no free value: R16 says that no rule of the spec
draws one. -/

namespace Sys2Proof

/-- The three hash variants (R2, R22). The register's value 3 is never written (R22, U14) and is not representable
(log 9). -/
inductive Variant where
  | mur32
  | x86
  | x64
  deriving DecidableEq, Repr

/-- The seed mode `SM` of INIT (R74). -/
inductive SeedMode where
  | broadcast
  | perLane
  deriving DecidableEq, Repr

/-- The digest word order of X86_128 (parameter `X86_ORDER`, R7, R231). -/
inductive X86Order where
  | h1First
  | h4First
  deriving DecidableEq, Repr

/-- The digest word order of X64_128 (parameter `X64_ORDER`, R7, R232). -/
inductive X64Order where
  | h2First
  | h1First
  deriving DecidableEq, Repr

/-- The multipliers of X86_128 (parameter `X86_C`, R7, R150). -/
structure X86Constants where
  c1 : Word
  c2 : Word
  c3 : Word
  c4 : Word
  deriving DecidableEq, Repr

/-- The configuration fields a model takes (R7). -/
structure Config where
  x86C : X86Constants
  x86Order : X86Order
  x64Order : X64Order
  deriving DecidableEq, Repr

/-- One row of a lane table (R131, R150, R170): multipliers, the two rotation amounts, the addend. A rotation amount lies
in `0 .. w` by its type (R100; log 10). -/
structure LaneParams (w : Nat) where
  c1 : BitVec w
  c2 : BitVec w
  r1 : Fin (w + 1)
  r2 : Fin (w + 1)
  n : BitVec w
  deriving DecidableEq, Repr

/-- The four accumulator words of X86_128 (R24). -/
structure X86Lanes where
  h1 : Word
  h2 : Word
  h3 : Word
  h4 : Word
  deriving DecidableEq, Repr

/-- The two accumulator words of X64_128 (R24). -/
structure X64Lanes where
  h1 : Word64
  h2 : Word64
  deriving DecidableEq, Repr

end Sys2Proof
end

