-- ==== Sys2Proof/Syntax.lean ====
section
/-! DEFINITION. The commands of MURMUR3-CMD version 1 (30_encoding.md R72), one constructor of `Instr` per row of
spec/opcode_table.json. Operands are what the words mean, not the words: Decode.lean reads them. -/

namespace Sys2Proof

/-- The operand forms of INIT, one per row of R78 (and per form of the assembler syntax, R86). -/
inductive SeedOperand where
  /-- MUR32, either seed mode: one word (R74). -/
  | mur32 (sm : SeedMode) (s : Word)
  /-- X86_128, SM = 0: one word for all four lanes. -/
  | x86Broadcast (s : Word)
  /-- X86_128, SM = 1: one word per lane. -/
  | x86PerLane (s1 s2 s3 s4 : Word)
  /-- X64_128, SM = 0: one 64-bit value for both lanes. -/
  | x64Broadcast (s : Word64)
  /-- X64_128, SM = 1: one 64-bit value per lane. -/
  | x64PerLane (s1 s2 : Word64)
  deriving DecidableEq, Repr

/-- The commands (R72). -/
inductive Instr where
  /-- Construct the hasher with a variant and seeds (R191). -/
  | init (op : SeedOperand)
  /-- Reinitialize to the seeded initial state (R192). -/
  | start
  /-- Feed bytes; `LEN` is their number (R193). -/
  | put (data : List Byte)
  /-- Ingest the remainder, finalize, serialize, return the digest (R195). -/
  | finish
  /-- Apply fmix32 to one word (R106). -/
  | fmix32 (p0 : Word)
  /-- Apply fmix64 to the 64-bit value whose low word is `p0` and high word `p1` (R107). -/
  | fmix64 (p0 p1 : Word)
  deriving DecidableEq, Repr

/-- What a legal header says: the command and the fields it uses (the tuple "(op, VAR, SM, LEN)" of R85). -/
inductive CommandForm where
  | init (var : Variant) (sm : SeedMode)
  | start
  | put (len : Nat)
  | finish
  | fmix32
  | fmix64
  deriving DecidableEq, Repr

end Sys2Proof
end

