-- ==== Sys2Proof/WellFormed.lean ====
section
/-! DEFINITION. Which terms of `Instr` are commands that a header can spell. -/

namespace Sys2Proof

/-- The most bytes one PUT carries (`MAX_PUT_LEN`, R7, R75). -/
def maxPutLen : Nat := 255

/-- A PUT carries at most `maxPutLen` bytes, since LEN has 8 bits (R75). Every operand of the other commands has exactly
the width its field has, so nothing is left to check for them. -/
def Instr.wf : Instr → Bool
  | .put data => decide (data.length ≤ maxPutLen)
  | .init _ => true
  | .start => true
  | .finish => true
  | .fmix32 _ => true
  | .fmix64 _ _ => true

end Sys2Proof
end

