-- ==== Sys2Proof/Decode.lean ====
section
/-! DEFINITION. Byte order (20_memory.md R53), the decoder of a command word stream (30_encoding.md R70 to R85), and after
it the encoder, written from the same tables. The decoder is total: it answers a command, a named rejection, or that
words are still missing. -/

namespace Sys2Proof

/-! ### Byte order (R10, R53) -/

/-- The value of a little-endian byte sequence (R10). -/
def leNat : List Byte → Nat
  | [] => 0
  | b :: bs => b.toNat + 256 * leNat bs

/-- `le_w(s)` of R10: the absent high bytes are zero. -/
def le (w : Nat) (s : List Byte) : BitVec w := BitVec.ofNat w (leNat s)

/-- `bytes_le_N(v)` of R10: byte `i` is `v[8i+7:8i]`. -/
def bytesLe {w : Nat} (n : Nat) (v : BitVec w) : List Byte :=
  (List.range n).map fun i => v.extractLsb' (8 * i) 8

/-- `p1 << 32 | p0`, a 64-bit value from two words, low word first (R80, D9). -/
def joinWords (p0 p1 : Word) : Word64 := p1 ++ p0

/-- Bits 31:0 of a 64-bit value. -/
def lowWord (v : Word64) : Word := v.extractLsb' 0 32

/-- Bits 63:32 of a 64-bit value. -/
def highWord (v : Word64) : Word := v.extractLsb' 32 32

/-- The bytes of a word sequence on a byte-serial link: byte 0 of a word carries its bits 7:0 (R53, D22). -/
def linkBytes (ws : List Word) : List Byte := ws.flatMap (bytesLe 4)

/-- The words that have arrived whole over a byte-serial link; up to three bytes of a word not yet complete stay on the
link (log 17). -/
def linkWords : List Byte → List Word
  | a :: b :: c :: d :: rest => le 32 [a, b, c, d] :: linkWords rest
  | _ => []

/-- PUT payload packing (R79): four bytes to a word, little-endian. The positions of the last word past the last byte are
ignored by the block; this encoder writes 0 there (log 12). -/
def packBytes : List Byte → List Word
  | a :: b :: c :: d :: rest => le 32 [a, b, c, d] :: packBytes rest
  | [] => []
  | short => [le 32 short]

/-- PUT payload unpacking (R79): `d[j] = p(j div 4)[8*(j mod 4)+7 : 8*(j mod 4)]` for `j < len`. -/
def unpackBytes (len : Nat) (p : List Word) : List Byte := (linkBytes p).take len

/-! ### Header fields (R71) -/

/-- `OP`, `H[3:0]`. -/
def hdrOp (h : Word) : BitVec 4 := h.extractLsb' 0 4
/-- `VAR`, `H[5:4]`. -/
def hdrVar (h : Word) : BitVec 2 := h.extractLsb' 4 2
/-- `SM`, `H[6]`. -/
def hdrSm (h : Word) : BitVec 1 := h.extractLsb' 6 1
/-- `H[7]`, reserved. -/
def hdrBit7 (h : Word) : BitVec 1 := h.extractLsb' 7 1
/-- `LEN`, `H[15:8]`. -/
def hdrLen (h : Word) : BitVec 8 := h.extractLsb' 8 8
/-- `H[31:16]`, reserved. -/
def hdrHigh (h : Word) : BitVec 16 := h.extractLsb' 16 16

/-- The variant a VAR field names; 3 names none (R73). -/
def varOf (v : BitVec 2) : Option Variant :=
  match v.toNat with
  | 0 => some .mur32
  | 1 => some .x86
  | 2 => some .x64
  | _ => none

/-- The seed mode an SM field names (R74). -/
def smOf (b : BitVec 1) : SeedMode := if b = 0 then .broadcast else .perLane

/-- INIT's payload length (R77, rows INIT). -/
def initPayloadLen : Variant → SeedMode → Nat
  | .mur32, _ => 1
  | .x86, .broadcast => 1
  | .x86, .perLane => 4
  | .x64, .broadcast => 2
  | .x64, .perLane => 4

/-- `P(H)`, the payload length in words, a function of the header alone and of its OP first, so that a header with a
field violation is framed as its OP is (R77). -/
def payloadLen (h : Word) : Nat :=
  match (hdrOp h).toNat with
  | 1 =>
    match varOf (hdrVar h) with
    | some v => initPayloadLen v (smOf (hdrSm h))
    | none => 0
  | 3 => ((hdrLen h).toNat + 3) / 4
  | 5 => 1
  | 6 => 2
  | _ => 0

/-- Why a header spells no command (R84; causes 1 and 2 of R251). -/
inductive Reject where
  | illegalOpcode
  | reservedField
  deriving DecidableEq, Repr

/-- The decoding procedure of R85, its checks in its order. -/
def decodeHeader (h : Word) : Except Reject CommandForm :=
  let op := (hdrOp h).toNat
  if op = 0 ∨ 7 ≤ op then .error .illegalOpcode
  else if hdrHigh h ≠ 0 ∨ hdrBit7 h ≠ 0 then .error .reservedField
  else if op ≠ 3 ∧ hdrLen h ≠ 0 then .error .reservedField
  else if op ≠ 1 ∧ (hdrVar h ≠ 0 ∨ hdrSm h ≠ 0) then .error .reservedField
  else match op with
    | 1 =>
      match varOf (hdrVar h) with
      | some v => .ok (.init v (smOf (hdrSm h)))
      | none => .error .reservedField
    | 2 => .ok .start
    | 3 => .ok (.put (hdrLen h).toNat)
    | 4 => .ok .finish
    | 5 => .ok .fmix32
    | _ => .ok .fmix64

/-- Payload word `j`. The decoder asks only for words below `P(H)`, which have arrived. -/
def payloadWord (p : List Word) (j : Nat) : Word := p.getD j 0

/-- The seed operand of an INIT (R78). -/
def readSeed (v : Variant) (sm : SeedMode) (p : List Word) : SeedOperand :=
  match v, sm with
  | .mur32, sm => .mur32 sm (payloadWord p 0)
  | .x86, .broadcast => .x86Broadcast (payloadWord p 0)
  | .x86, .perLane =>
    .x86PerLane (payloadWord p 0) (payloadWord p 1) (payloadWord p 2) (payloadWord p 3)
  | .x64, .broadcast => .x64Broadcast (joinWords (payloadWord p 0) (payloadWord p 1))
  | .x64, .perLane =>
    .x64PerLane (joinWords (payloadWord p 0) (payloadWord p 1)) (joinWords (payloadWord p 2) (payloadWord p 3))

/-- The command of a legal header and its payload (R78, R79, R80). -/
def readOperands (f : CommandForm) (p : List Word) : Instr :=
  match f with
  | .init v sm => .init (readSeed v sm p)
  | .start => .start
  | .put len => .put (unpackBytes len p)
  | .finish => .finish
  | .fmix32 => .fmix32 (payloadWord p 0)
  | .fmix64 => .fmix64 (payloadWord p 0) (payloadWord p 1)

/-- What the front of a word stream spells. -/
inductive Decoded where
  /-- No word has arrived: the block awaits a header (R291). -/
  | noHeader
  /-- A header has arrived and fewer than `P(H)` words after it (R70, R297). -/
  | short
  /-- The header spells no command; `rest` is what follows its frame (R77). -/
  | reject (r : Reject) (h : Word) (rest : List Word)
  /-- A command, and the words after it. -/
  | instr (i : Instr) (rest : List Word)
  deriving DecidableEq, Repr

/-- Decode the front of a word stream: header, then `P(H)` payload words, then the checks (R70, R77, R85). -/
def decode : List Word → Decoded
  | [] => .noHeader
  | h :: ws =>
    if ws.length < payloadLen h then .short
    else
      match decodeHeader h with
      | .error r => .reject r h (ws.drop (payloadLen h))
      | .ok f => .instr (readOperands f (ws.take (payloadLen h))) (ws.drop (payloadLen h))

/-! ### The encoder -/

/-- `0000000000000000 LLLLLLLL 0 S VV OOOO` (R71). -/
def headerWord (op : BitVec 4) (var : BitVec 2) (sm : BitVec 1) (len : BitVec 8) : Word :=
  0#16 ++ len ++ 0#1 ++ sm ++ var ++ op

/-- The VAR field and the VARIANT register's value (R22, R73). -/
def Variant.code : Variant → BitVec 2
  | .mur32 => 0
  | .x86 => 1
  | .x64 => 2

/-- The SM field (R74). -/
def SeedMode.code : SeedMode → BitVec 1
  | .broadcast => 0
  | .perLane => 1

/-- The variant an INIT operand constructs (R78). -/
def SeedOperand.variant : SeedOperand → Variant
  | .mur32 _ _ => .mur32
  | .x86Broadcast _ => .x86
  | .x86PerLane _ _ _ _ => .x86
  | .x64Broadcast _ => .x64
  | .x64PerLane _ _ => .x64

/-- The seed mode of an INIT operand (R78). -/
def SeedOperand.mode : SeedOperand → SeedMode
  | .mur32 sm _ => sm
  | .x86Broadcast _ => .broadcast
  | .x86PerLane _ _ _ _ => .perLane
  | .x64Broadcast _ => .broadcast
  | .x64PerLane _ _ => .perLane

/-- INIT's payload words (R78), 64-bit values low word first. -/
def SeedOperand.payload : SeedOperand → List Word
  | .mur32 _ s => [s]
  | .x86Broadcast s => [s]
  | .x86PerLane s1 s2 s3 s4 => [s1, s2, s3, s4]
  | .x64Broadcast s => [lowWord s, highWord s]
  | .x64PerLane s1 s2 => [lowWord s1, highWord s1, lowWord s2, highWord s2]

/-- The header of a command (R71, R72). -/
def Instr.header : Instr → Word
  | .init op => headerWord 1 op.variant.code op.mode.code 0
  | .start => headerWord 2 0 0 0
  | .put data => headerWord 3 0 0 (BitVec.ofNat 8 data.length)
  | .finish => headerWord 4 0 0 0
  | .fmix32 _ => headerWord 5 0 0 0
  | .fmix64 _ _ => headerWord 6 0 0 0

/-- The payload of a command (R77 to R80). -/
def Instr.payload : Instr → List Word
  | .init op => op.payload
  | .start => []
  | .put data => packBytes data
  | .finish => []
  | .fmix32 p0 => [p0]
  | .fmix64 p0 p1 => [p0, p1]

/-- The words of a command (R70). -/
def encode (i : Instr) : List Word := i.header :: i.payload

/-- The words of a command sequence, in send order (R60). -/
def encodeAll (is : List Instr) : List Word := is.flatMap encode

/-! ### A table word as a word stream -/

/-- The longest command: a header and the 64 payload words of a 255-byte PUT (R77). -/
def maxCommandWords : Nat := 65

/-- The word stream of an opcode-table word: bits `32j+31:32j` are word `j`, the header first; bits from `nbits` up are
zero. -/
def tableWords (nbits w : Nat) : List Word :=
  (List.range maxCommandWords).map fun j => BitVec.ofNat 32 ((w % 2 ^ nbits) >>> (32 * j))

/-- The header of an opcode-table word and the payload words it frames. -/
def tableCommand (nbits w : Nat) : List Word :=
  match tableWords nbits w with
  | [] => []
  | h :: ps => h :: ps.take (payloadLen h)

/-- The command the decoder reads from an opcode-table word, none where it refuses: the words cross a byte-serial link
(R53) and are decoded. -/
def decodeTableWord (nbits w : Nat) : Option Instr :=
  match decode (linkWords (linkBytes (tableWords nbits w))) with
  | .instr i _ => some i
  | .reject _ _ _ => none
  | .short => none
  | .noHeader => none

end Sys2Proof
end

