-- ==== Sys2Proof/Machine/State.lean ====
section
/-! DEFINITION. The state of the block (10_state.md R20 to R32) and of its host interface, the reasons a step can stop, and
the state after reset (70_reset_and_hazards.md R290). -/

namespace Sys2Proof.Machine

/-- PHASE (R21). The value 3 is never written and is not representable (log 9). -/
inductive Phase where
  | idle
  | active
  | finished
  deriving DecidableEq, Repr

/-- MIXPHASE (R28). The value 3 is never written and is not representable (log 9). -/
inductive MixPhase where
  | blocks
  | tailTaken
  | finalized
  deriving DecidableEq, Repr

/-- The causes of R251 (register CAUSE, R31). The codes 11..15 are never written and are not representable (log 9). -/
inductive Cause where
  | none
  | illegalOpcode
  | reservedField
  | notConfigured
  | putAfterFinish
  | finishAfterFinish
  | tailTooLong
  | tailNotAccepted
  | blockNotAccepted
  | finalizeNotAccepted
  | digestNotReady
  deriving DecidableEq, Repr

/-- Everything the spec gives the machine (R20), then the model's own host interface (log 1, 2, 3). -/
structure State where
  /-- PHASE, R21. -/
  phase : Phase
  /-- VARIANT, R22. -/
  variant : Variant
  /-- SEED, R23. -/
  seed : Reg128
  /-- ACC, R24. -/
  acc : Reg128
  /-- COUNT, R25. -/
  count : BitVec 64
  /-- BUF, R26. -/
  buf : Vector Byte 16
  /-- BUFLEN, 4 bits, R27. -/
  buflen : Fin 16
  /-- MIXPHASE, R28. -/
  mixphase : MixPhase
  /-- DIGEST, R29. -/
  digest : Reg128
  /-- FAULT, R30. -/
  fault : Bool
  /-- CAUSE, R31. -/
  cause : Cause
  /-- FAULT_HDR, R32. -/
  faultHdr : Word
  /-- Words that have arrived and no command has consumed, oldest first (R70, R297; log 1). -/
  input : List Word
  /-- Response words emitted, oldest first (R70, R81, R82; log 2). -/
  output : List Word
  /-- The platform asks for reset at the next step (R290; log 3). -/
  resetLine : Bool
  deriving DecidableEq, Repr

/-- Why there is no next step. Each leaves the state as it is. -/
inductive Fault where
  /-- Raised by `step` and by every meaning while FAULT = 1: the block performs no command until reset (R255). A stuck
  state of the spec; safe. -/
  | stopped
  /-- Raised by `step` when no word has arrived: the block awaits a header (R291, R297). A stuck state of the spec; safe. -/
  | awaitingHeader
  /-- Raised by `step` when a header has arrived and not all of its payload words (R297 item 1, U15). A stuck state of the
  spec; safe. -/
  | awaitingPayload
  deriving DecidableEq, Repr

/-- What has no meaning in the model. -/
inductive Refusal where
  /-- Raised by an arm of `exec` that has no meaning yet; no arm of this model raises it. Safe. -/
  | notModelled (mnemonic : String)
  /-- Raised by Machine/Platform.lean for an instance that has not exactly one host (R62, R265, U6). Safe. -/
  | notOneHost
  deriving DecidableEq, Repr

/-- The state after reset (R290). BUF is unspecified there; its bytes are 0 here (DESIGN CHOICE, log 4, unsafe). -/
def State.reset : State where
  phase := .idle
  variant := .mur32
  seed := 0
  acc := 0
  count := 0
  buf := Vector.replicate 16 0
  buflen := 0
  mixphase := .blocks
  digest := 0
  fault := false
  cause := .none
  faultHdr := 0
  input := []
  output := []
  resetLine := false

end Sys2Proof.Machine
end

