-- ==== Sys2Proof/Machine/Flags.lean ====
section
/-! DEFINITION. The register encodings of the control state (10_state.md R21, R22, R28, R31), the one flag FAULT and the
status word that reports it (30_encoding.md R81). The block has no other flag and commands write none (R33). -/

namespace Sys2Proof.Machine

/-- The value of the PHASE register (R21). -/
def Phase.code : Phase → BitVec 2
  | .idle => 0
  | .active => 1
  | .finished => 2

/-- The value of the MIXPHASE register (R28). -/
def MixPhase.code : MixPhase → BitVec 2
  | .blocks => 0
  | .tailTaken => 1
  | .finalized => 2

/-- The value of the CAUSE register (R251). -/
def Cause.code : Cause → BitVec 4
  | .none => 0
  | .illegalOpcode => 1
  | .reservedField => 2
  | .notConfigured => 3
  | .putAfterFinish => 4
  | .finishAfterFinish => 5
  | .tailTooLong => 6
  | .tailNotAccepted => 7
  | .blockNotAccepted => 8
  | .finalizeNotAccepted => 9
  | .digestNotReady => 10

/-- The cause of a rejected header (R251 codes 1 and 2). -/
def rejectCause : Reject → Cause
  | .illegalOpcode => .illegalOpcode
  | .reservedField => .reservedField

/-- The status word (R81): `S[0] = F`, `S[7:4] = CAUSE`, `S[11:8] = OPX`, all other bits 0. -/
def statusWord (f : Bool) (c : Cause) (opx : BitVec 4) : Word :=
  0#20 ++ opx ++ c.code ++ 0#3 ++ BitVec.ofBool f

end Sys2Proof.Machine
end

