-- ==== Sys2Proof/Machine/Params.lean ====
section
/-! DEFINITION. The values of this hardware's parameters (00_scope.md R7): the configuration fields, the derived widths
(10_state.md R35) and the lane tables of the three variants (R131, R150, R170). -/

namespace Sys2Proof.Machine

/-- The configuration of this hardware (R7). `x86C` holds the values of R150, which the spec supplies from general
knowledge (G1; PRESUMED, log 7); the orders are H1_FIRST and H2_FIRST (C1, C2). -/
def hardware : Config where
  x86C := { c1 := 0x239b961b, c2 := 0xab0e9789, c3 := 0x38b34ae5, c4 := 0xa1e38b93 }
  x86Order := .h1First
  x64Order := .h2First

/-- `BW(VARIANT)`, the block width in bytes (R35). -/
def blockWidth : Variant → Nat
  | .mur32 => 4
  | .x86 => 16
  | .x64 => 16

/-- `DW(VARIANT)`, the digest width in bytes (R35). -/
def digestWidth : Variant → Nat
  | .mur32 => 4
  | .x86 => 16
  | .x64 => 16

/-- The lane of MUR32 (R131). -/
def mur32Lane : LaneParams 32 where
  c1 := 0xcc9e2d51
  c2 := 0x1b873593
  r1 := 15
  r2 := 13
  n := 0xe6546b64

/-- Lane h1 of X86_128 (R150). -/
def x86Lane1 : LaneParams 32 where
  c1 := hardware.x86C.c1
  c2 := hardware.x86C.c2
  r1 := 15
  r2 := 19
  n := 0x561ccd1b

/-- Lane h2 of X86_128 (R150). -/
def x86Lane2 : LaneParams 32 where
  c1 := hardware.x86C.c2
  c2 := hardware.x86C.c3
  r1 := 16
  r2 := 17
  n := 0x0bcaa747

/-- Lane h3 of X86_128 (R150). -/
def x86Lane3 : LaneParams 32 where
  c1 := hardware.x86C.c3
  c2 := hardware.x86C.c4
  r1 := 17
  r2 := 15
  n := 0x96cd1c35

/-- Lane h4 of X86_128 (R150). -/
def x86Lane4 : LaneParams 32 where
  c1 := hardware.x86C.c4
  c2 := hardware.x86C.c1
  r1 := 18
  r2 := 13
  n := 0x32ac3b17

/-- Lane h1 of X64_128 (R170). -/
def x64Lane1 : LaneParams 64 where
  c1 := 0x87c37b91114253d5
  c2 := 0x4cf5ad432745937f
  r1 := 31
  r2 := 27
  n := 0x52dce729

/-- Lane h2 of X64_128 (R170). -/
def x64Lane2 : LaneParams 64 where
  c1 := 0x4cf5ad432745937f
  c2 := 0x87c37b91114253d5
  r1 := 33
  r2 := 31
  n := 0x38495ab5

end Sys2Proof.Machine
end

