-- ==== Sys2Proof/Machine/Ops.lean ====
section
/-! DEFINITION. The shared operations: responding, taking a fault (60_exceptions.md R253), the reset that alone leaves it
(70_reset_and_hazards.md R290, R256), performing one command atomically (20_memory.md R58), and the byte buffer
(10_state.md R26, R27). -/

namespace Sys2Proof.Machine

/-- What a step or a command ends in. -/
abbrev Answer := Host.Outcome State Fault Refusal

/-- What the body of a command ends in: a cause, or the new state and the response's data words. -/
abbrev Body := Except Cause (State × List Word)

/-- `respond(words)` (R11): the words leave after every earlier response (R60). -/
def respond (ws : List Word) (s : State) : State := { s with output := s.output ++ ws }

/-- `raise Fault(c)` during a command with header `h` (R253). `s` is the state before the command: the command has no
effect but FAULT, CAUSE, FAULT_HDR and a response that is its status word alone. -/
def raiseFault (c : Cause) (h : Word) (s : State) : State :=
  respond [statusWord true c (hdrOp h)] { s with fault := true, cause := c, faultHdr := h }

/-- `RESET()` (R290): every element to its reset value, words of a command not yet started discarded, no response. The
responses already emitted have left the block and stay. BUF as at State.reset (log 4). -/
def resetEvent (s : State) : State := { State.reset with output := s.output }

/-- Perform one command with header `h` (R58, R252, R253): not at all while FAULT = 1 (R255); otherwise its body, answering
a status word with F = 0 and its data words (R81, R82), or the fault it raises, with the state before the command. -/
def perform (h : Word) (body : State → Body) (s : State) : Answer :=
  if s.fault then .fault .stopped
  else
    match body s with
    | .error c => .next (raiseFault c h s)
    | .ok (s', ws) => .next (respond (statusWord false .none (hdrOp h) :: ws) s')

/-- `BW(VARIANT)` of the state (R190). -/
def State.bw (s : State) : Nat := blockWidth s.variant

/-- `BUF[0..n)` (R26). -/
def bufRead (n : Nat) (buf : Vector Byte 16) : List Byte := buf.toList.take n

/-- `BUF[i + j] <- bs[j]` for each `j` (R26). -/
def bufWrite (i : Nat) (bs : List Byte) (buf : Vector Byte 16) : Vector Byte 16 :=
  match bs with
  | [] => buf
  | b :: bs => bufWrite (i + 1) bs (buf.setIfInBounds i b)

/-- The valid bytes, `BUF[0..BUFLEN)` (R26, R27). -/
def State.buffered (s : State) : List Byte := bufRead s.buflen.val s.buf

/-- Append bytes to BUF at BUFLEN. BUFLEN is not written: its caller knows whether the block is complete. -/
def appendBytes (bs : List Byte) (s : State) : State := { s with buf := bufWrite s.buflen.val bs s.buf }

/-- `BUFLEN <- n`, a 4-bit register (R27; log 14). -/
def setBuflen (n : Nat) (s : State) : State := { s with buflen := Fin.ofNat 16 n }

end Sys2Proof.Machine
end

