-- ==== Sys2Proof/Machine/Primitives.lean ====
section
/-! DEFINITION. The bit-mixing primitives (40_primitives.md R100 to R104): pure functions, no state. -/

namespace Sys2Proof.Machine

/-- `rotl_W(x, r)` (R100): identity at `r = 0` and at `r = W`. -/
def rotl {w : Nat} (x : BitVec w) (r : Fin (w + 1)) : BitVec w :=
  if r.val = 0 ∨ r.val = w then x else (x <<< r.val) ||| (x >>> (w - r.val))

/-- `shuffle_W(k, c1, c2, r1)` (R101): multiply, rotate, multiply. -/
def shuffle {w : Nat} (k c1 c2 : BitVec w) (r1 : Fin (w + 1)) : BitVec w := rotl (k * c1) r1 * c2

/-- `update_W(h, k, m, c1, c2, r1, r2, n)` (R102). -/
def update {w : Nat} (h k m c1 c2 : BitVec w) (r1 r2 : Fin (w + 1)) (n : BitVec w) : BitVec w :=
  let h := h ^^^ shuffle k c1 c2 r1
  let h := rotl h r2
  let h := h + m
  h * 5 + n

/-- `fmix32(h)` (R103). -/
def fmix32 (h : Word) : Word :=
  let h := h ^^^ (h >>> 16)
  let h := h * 0x85ebca6b
  let h := h ^^^ (h >>> 13)
  let h := h * 0xc2b2ae35
  h ^^^ (h >>> 16)

/-- `fmix64(k)` (R104). -/
def fmix64 (k : Word64) : Word64 :=
  let k := k ^^^ (k >>> 33)
  let k := k * 0xff51afd7ed558ccd
  let k := k ^^^ (k >>> 33)
  let k := k * 0xc4ceb9fe1a85ec53
  k ^^^ (k >>> 33)

/-- The block update of one lane with its row's constants (R131, R150, R170): word `k`, mixWith `m`. -/
def laneBlock {w : Nat} (p : LaneParams w) (h k m : BitVec w) : BitVec w :=
  update h k m p.c1 p.c2 p.r1 p.r2 p.n

/-- The tail fold of one lane with its row's constants (R134, R153, R173): no rotate, add or multiply follows. -/
def laneTail {w : Nat} (p : LaneParams w) (h k : BitVec w) : BitVec w := h ^^^ shuffle k p.c1 p.c2 p.r1

end Sys2Proof.Machine
end

