-- ==== Sys2Proof/Machine/Mur32.lean ====
section
/-! DEFINITION. The 32-bit one-lane mixer (41_mixer32.md R131 to R135) as functions of its lane. -/

namespace Sys2Proof.Machine

/-- The view `h1 = ACC[31:0]` (R24). -/
def mur32View (acc : Reg128) : Word := acc.extractLsb' 0 32

/-- Write `h1`; no rule of MUR32 writes `ACC[127:32]` after INIT and START (R24). -/
def mur32Write (acc : Reg128) (h1 : Word) : Reg128 := acc.extractLsb' 32 96 ++ h1

/-- MIX_BLOCK's lane update for a 4-byte block (R133). -/
def mur32Block (b : List Byte) (h1 : Word) : Word := laneBlock mur32Lane h1 (le 32 (b.take 4)) 0

/-- MIX_TAIL's lane fold for 0 to 3 bytes (R134). -/
def mur32Tail (t : List Byte) (h1 : Word) : Word := laneTail mur32Lane h1 (le 32 t)

/-- MIX_FINALIZE's lane function; the count is taken modulo `2 ^ 32` (R135, D8). -/
def mur32Finalize (count : BitVec 64) (h1 : Word) : Word := fmix32 (h1 ^^^ count.extractLsb' 0 32)

end Sys2Proof.Machine
end

