-- ==== Sys2Proof/Machine/X64.lean ====
section
/-! DEFINITION. The 128-bit two-lane mixer (43_mixer128_x64.md R170 to R174) as functions of its lanes. Every statement
reads the values the earlier statements left (R9, R296). -/

namespace Sys2Proof.Machine

/-- The views `h1, h2` of ACC (R24). -/
def x64View (acc : Reg128) : X64Lanes where
  h1 := acc.extractLsb' 0 64
  h2 := acc.extractLsb' 64 64

/-- ACC from its two views (R24). -/
def x64Pack (l : X64Lanes) : Reg128 := l.h2 ++ l.h1

/-- The 64-bit word `j` of a block or a tail, absent bytes zero (R53, R172, R173). -/
def word64 (b : List Byte) (j : Nat) : Word64 := le 64 ((b.drop (8 * j)).take 8)

/-- MIX_BLOCK's lane updates for a 16-byte block, in order: the h2 update reads the new h1 (R172, R296). -/
def x64Block (b : List Byte) (l : X64Lanes) : X64Lanes :=
  let h1 := laneBlock x64Lane1 l.h1 (word64 b 0) l.h2
  let h2 := laneBlock x64Lane2 l.h2 (word64 b 1) h1
  { h1 := h1, h2 := h2 }

/-- MIX_TAIL's lane folds for 0 to 15 bytes: a group that holds at least one tail byte is folded, k2 first (R173). -/
def x64Tail (t : List Byte) (l : X64Lanes) : X64Lanes :=
  let h2 := if 8 < t.length then laneTail x64Lane2 l.h2 (word64 t 1) else l.h2
  let h1 := if 0 < t.length then laneTail x64Lane1 l.h1 (word64 t 0) else l.h1
  { h1 := h1, h2 := h2 }

/-- The cross-addition round of R174: `h1 += h2; h2 += h1`. -/
def x64Round (l : X64Lanes) : X64Lanes :=
  let h1 := l.h1 + l.h2
  { h1 := h1, h2 := l.h2 + h1 }

/-- MIX_FINALIZE's lane function: the full 64-bit count, round, fmix64, round (R174). -/
def x64Finalize (count : BitVec 64) (l : X64Lanes) : X64Lanes :=
  let l := x64Round { h1 := l.h1 ^^^ count, h2 := l.h2 ^^^ count }
  x64Round { h1 := fmix64 l.h1, h2 := fmix64 l.h2 }

end Sys2Proof.Machine
end

