-- ==== Sys2Proof/Machine/X86.lean ====
section
/-! DEFINITION. The 128-bit four-lane mixer (42_mixer128_x86.md R150 to R154) as functions of its lanes. Every statement
reads the values the earlier statements left (R9, R296). -/

namespace Sys2Proof.Machine

/-- The views `h1 .. h4` of ACC (R24). -/
def x86View (acc : Reg128) : X86Lanes where
  h1 := acc.extractLsb' 0 32
  h2 := acc.extractLsb' 32 32
  h3 := acc.extractLsb' 64 32
  h4 := acc.extractLsb' 96 32

/-- ACC from its four views (R24). -/
def x86Pack (l : X86Lanes) : Reg128 := l.h4 ++ l.h3 ++ l.h2 ++ l.h1

/-- The 32-bit word `j` of a block or a tail, absent bytes zero (R53, R152, R153). -/
def word32 (b : List Byte) (j : Nat) : Word := le 32 ((b.drop (4 * j)).take 4)

/-- MIX_BLOCK's lane updates for a 16-byte block, in order: the h4 update reads the new h1 (R152, R296). -/
def x86Block (b : List Byte) (l : X86Lanes) : X86Lanes :=
  let h1 := laneBlock x86Lane1 l.h1 (word32 b 0) l.h2
  let h2 := laneBlock x86Lane2 l.h2 (word32 b 1) l.h3
  let h3 := laneBlock x86Lane3 l.h3 (word32 b 2) l.h4
  let h4 := laneBlock x86Lane4 l.h4 (word32 b 3) h1
  { h1 := h1, h2 := h2, h3 := h3, h4 := h4 }

/-- MIX_TAIL's lane folds for 0 to 15 bytes: a group that holds at least one tail byte is folded, group 4 first (R153). -/
def x86Tail (t : List Byte) (l : X86Lanes) : X86Lanes :=
  let h4 := if 12 < t.length then laneTail x86Lane4 l.h4 (word32 t 3) else l.h4
  let h3 := if 8 < t.length then laneTail x86Lane3 l.h3 (word32 t 2) else l.h3
  let h2 := if 4 < t.length then laneTail x86Lane2 l.h2 (word32 t 1) else l.h2
  let h1 := if 0 < t.length then laneTail x86Lane1 l.h1 (word32 t 0) else l.h1
  { h1 := h1, h2 := h2, h3 := h3, h4 := h4 }

/-- The cross-addition round of R154: `h1+=h2; h1+=h3; h1+=h4; h2+=h1; h3+=h1; h4+=h1`. -/
def x86Round (l : X86Lanes) : X86Lanes :=
  let h1 := l.h1 + l.h2
  let h1 := h1 + l.h3
  let h1 := h1 + l.h4
  { h1 := h1, h2 := l.h2 + h1, h3 := l.h3 + h1, h4 := l.h4 + h1 }

/-- MIX_FINALIZE's lane function: count xor (modulo `2 ^ 32`), round, fmix32, round (R154). -/
def x86Finalize (count : BitVec 64) (l : X86Lanes) : X86Lanes :=
  let n : Word := count.extractLsb' 0 32
  let l := x86Round { h1 := l.h1 ^^^ n, h2 := l.h2 ^^^ n, h3 := l.h3 ^^^ n, h4 := l.h4 ^^^ n }
  x86Round { h1 := fmix32 l.h1, h2 := fmix32 l.h2, h3 := fmix32 l.h3, h4 := fmix32 l.h4 }

end Sys2Proof.Machine
end

