-- ==== Sys2Proof/Machine/Serializer.lean ====
section
/-! DEFINITION. The digest serializer (45_digest_serializer.md R230 to R237): the digest bytes of ACC under VARIANT, and the
DIGEST register and data words made of them (10_state.md R29, 30_encoding.md R82, R83). It writes no state (R235). -/

namespace Sys2Proof.Machine

/-- The 4 bytes of MUR32, little-endian (R230). -/
def serializeMur32 (h1 : Word) : List Byte := bytesLe 4 h1

/-- The 16 bytes of X86_128 in the configured word order, each word little-endian (R231; the other order is another
hardware, log 8). -/
def serializeX86 (order : X86Order) (l : X86Lanes) : List Byte :=
  match order with
  | .h1First => bytesLe 4 l.h1 ++ bytesLe 4 l.h2 ++ bytesLe 4 l.h3 ++ bytesLe 4 l.h4
  | .h4First => bytesLe 4 l.h4 ++ bytesLe 4 l.h3 ++ bytesLe 4 l.h2 ++ bytesLe 4 l.h1

/-- The 16 bytes of X64_128 in the configured word order, each word little-endian (R232; the other order is another
hardware, log 8). -/
def serializeX64 (order : X64Order) (l : X64Lanes) : List Byte :=
  match order with
  | .h2First => bytesLe 8 l.h2 ++ bytesLe 8 l.h1
  | .h1First => bytesLe 8 l.h1 ++ bytesLe 8 l.h2

/-- The digest bytes of a finalized accumulator (R230 to R232). -/
def digestBytes (v : Variant) (acc : Reg128) : List Byte :=
  match v with
  | .mur32 => serializeMur32 (mur32View acc)
  | .x86 => serializeX86 hardware.x86Order (x86View acc)
  | .x64 => serializeX64 hardware.x64Order (x64View acc)

/-- The DIGEST register of digest bytes: byte `i` at `DIGEST[8i+7:8i]`, absent bytes 0 (R29, R195 `zext_128`). -/
def digestReg (bs : List Byte) : Reg128 := le 128 bs

/-- FINISH's data words: word `j` is `DIGEST[32j+31:32j]`, `DW(VARIANT) / 4` of them (R82). -/
def digestWords (v : Variant) (digest : Reg128) : List Word :=
  (List.range (digestWidth v / 4)).map fun j => digest.extractLsb' (32 * j) 32

end Sys2Proof.Machine
end

