-- ==== Sys2Proof/Machine/Mixer.lean ====
section
/-! DEFINITION. The mixer interface (41_mixer32.md R130): the five internal operations, their preconditions and faults, and
their dispatch on VARIANT (44_block_buffer.md R190). They have no encoding (30_encoding.md R88). A violated precondition is
a cause, and the operation then has no effect. -/

namespace Sys2Proof.Machine

/-- ACC from SEED by the variant's views, unused bits 0 (R130, R132, R151, R171). -/
def seedAcc (v : Variant) (seed : Reg128) : Reg128 :=
  match v with
  | .mur32 => (mur32View seed).zeroExtend 128
  | .x86 => x86Pack (x86View seed)
  | .x64 => x64Pack (x64View seed)

/-- ACC after a block (R133, R152, R172). -/
def blockAcc (v : Variant) (b : List Byte) (acc : Reg128) : Reg128 :=
  match v with
  | .mur32 => mur32Write acc (mur32Block b (mur32View acc))
  | .x86 => x86Pack (x86Block b (x86View acc))
  | .x64 => x64Pack (x64Block b (x64View acc))

/-- ACC after the tail (R134, R153, R173). -/
def tailAcc (v : Variant) (t : List Byte) (acc : Reg128) : Reg128 :=
  match v with
  | .mur32 => mur32Write acc (mur32Tail t (mur32View acc))
  | .x86 => x86Pack (x86Tail t (x86View acc))
  | .x64 => x64Pack (x64Tail t (x64View acc))

/-- ACC after finalization (R135, R154, R174). -/
def finalAcc (v : Variant) (count : BitVec 64) (acc : Reg128) : Reg128 :=
  match v with
  | .mur32 => mur32Write acc (mur32Finalize count (mur32View acc))
  | .x86 => x86Pack (x86Finalize count (x86View acc))
  | .x64 => x64Pack (x64Finalize count (x64View acc))

/-- `MIX_INIT(v, seed)` (R130). -/
def mixInit (v : Variant) (seed : Reg128) (s : State) : State :=
  { s with variant := v, acc := seedAcc v seed, count := 0, mixphase := .blocks }

/-- `MIX_BLOCK(b)` for a block of `BW(VARIANT)` bytes (R130; the length is its caller's, log 15). -/
def mixBlock (b : List Byte) (s : State) : Except Cause State :=
  match s.mixphase with
  | .blocks =>
    .ok { s with acc := blockAcc s.variant b s.acc, count := s.count + BitVec.ofNat 64 s.bw }
  | .tailTaken => .error .blockNotAccepted
  | .finalized => .error .blockNotAccepted

/-- `MIX_TAIL(t)`: MIXPHASE is checked before the length (R130, R252). -/
def mixTail (t : List Byte) (s : State) : Except Cause State :=
  match s.mixphase with
  | .blocks =>
    if t.length < s.bw then
      .ok { s with
        acc := tailAcc s.variant t s.acc
        count := s.count + BitVec.ofNat 64 t.length
        mixphase := .tailTaken }
    else .error .tailTooLong
  | .tailTaken => .error .tailNotAccepted
  | .finalized => .error .tailNotAccepted

/-- `MIX_FINALIZE()` (R130). -/
def mixFinalize (s : State) : Except Cause State :=
  match s.mixphase with
  | .blocks => .ok { s with acc := finalAcc s.variant s.count s.acc, mixphase := .finalized }
  | .tailTaken => .ok { s with acc := finalAcc s.variant s.count s.acc, mixphase := .finalized }
  | .finalized => .error .finalizeNotAccepted

/-- `MIX_GETBYTES()`: a pure read (R130, R235). -/
def mixGetBytes (s : State) : Except Cause (List Byte) :=
  match s.mixphase with
  | .finalized => .ok (digestBytes s.variant s.acc)
  | .blocks => .error .digestNotReady
  | .tailTaken => .error .digestNotReady

/-- The source's `putBlocks`: MIX_BLOCK on each block in order (R130). -/
def putBlocks : List (List Byte) → State → Except Cause State
  | [], s => .ok s
  | b :: bs, s =>
    match mixBlock b s with
    | .error c => .error c
    | .ok s' => putBlocks bs s'

end Sys2Proof.Machine
end

