-- ==== Sys2Proof/Machine/Operands.lean ====
section
/-! DEFINITION. What an operand form gives the meaning of its command: the SEED register of each INIT form (30_encoding.md
R78, 10_state.md R23) and the operand of FMIX64 (R80). PUT's bytes are unpacked by the decoder (R79). -/

namespace Sys2Proof.Machine

/-- `seedview` of R191: the SEED register of an INIT operand, the bits outside the variant's views 0 (R23, R78). -/
def seedView : SeedOperand → Reg128
  | .mur32 _ s => s.zeroExtend 128
  | .x86Broadcast s => x86Pack { h1 := s, h2 := s, h3 := s, h4 := s }
  | .x86PerLane s1 s2 s3 s4 => x86Pack { h1 := s1, h2 := s2, h3 := s3, h4 := s4 }
  | .x64Broadcast s => x64Pack { h1 := s, h2 := s }
  | .x64PerLane s1 s2 => x64Pack { h1 := s1, h2 := s2 }

/-- The 64-bit operand of FMIX64 (R80). -/
def fmix64Operand (p0 p1 : Word) : Word64 := joinWords p0 p1

end Sys2Proof.Machine
end

