-- ==== Sys2Proof/Machine/Construct.lean ====
section
/-! DEFINITION. The commands that begin a hash: INIT and START (44_block_buffer.md R191, R192). -/

namespace Sys2Proof.Machine

/-- What INIT and START share: MIX_INIT from SEED, an empty buffer, DIGEST 0, PHASE ACTIVE. -/
def beginHash (v : Variant) (s : State) : State :=
  let s := setBuflen 0 (mixInit v s.seed s)
  { s with digest := 0, phase := .active }

/-- INIT's body (R191): legal in every phase (D30). -/
def initBody (op : SeedOperand) (s : State) : Body :=
  .ok (beginHash op.variant { s with seed := seedView op }, [])

/-- START's body (R192). -/
def startBody (s : State) : Body :=
  match s.phase with
  | .idle => .error .notConfigured
  | .active => .ok (beginHash s.variant s, [])
  | .finished => .ok (beginHash s.variant s, [])

/-- INIT (R191). -/
def execInit (op : SeedOperand) (s : State) : Answer := perform (Instr.header (.init op)) (initBody op) s

/-- START (R192). -/
def execStart (s : State) : Answer := perform (Instr.header .start) startBody s

end Sys2Proof.Machine
end

