-- ==== Sys2Proof/Machine/Fmix.lean ====
section
/-! DEFINITION. The commands that expose the finalizers: FMIX32 and FMIX64 (40_primitives.md R106, R107). They write no
state and are legal in every phase (D16). -/

namespace Sys2Proof.Machine

/-- FMIX32's body (R106). -/
def fmix32Body (p0 : Word) (s : State) : Body := .ok (s, [fmix32 p0])

/-- FMIX64's body (R107): the result low word first. -/
def fmix64Body (p0 p1 : Word) (s : State) : Body :=
  let r := fmix64 (fmix64Operand p0 p1)
  .ok (s, [lowWord r, highWord r])

/-- FMIX32 (R106). -/
def execFmix32 (p0 : Word) (s : State) : Answer := perform (Instr.header (.fmix32 p0)) (fmix32Body p0) s

/-- FMIX64 (R107). -/
def execFmix64 (p0 p1 : Word) (s : State) : Answer :=
  perform (Instr.header (.fmix64 p0 p1)) (fmix64Body p0 p1) s

end Sys2Proof.Machine
end

