-- ==== Sys2Proof/Machine/Stream.lean ====
section
/-! DEFINITION. The commands of the incremental block buffer: PUT and FINISH (44_block_buffer.md R193, R195), and the
byte-serial form of PUT (R194). -/

namespace Sys2Proof.Machine

/-- Step (a) of R193: complete a partly filled buffer. Answers the bytes of the input not yet taken. -/
def fillBuffer (d : List Byte) (s : State) : Except Cause (State × List Byte) :=
  if s.buflen.val = 0 then .ok (s, d)
  else
    let n := min (s.bw - s.buflen.val) d.length
    let s1 := appendBytes (d.take n) s
    if s.buflen.val + n = s.bw then
      match mixBlock (bufRead s.bw s1.buf) s1 with
      | .error c => .error c
      | .ok s2 => .ok (setBuflen 0 s2, d.drop n)
    else .ok (setBuflen (s.buflen.val + n) s1, d.drop n)

/-- Step (b) of R193: forward whole blocks straight from the input. `fuel` bounds the loop; each turn takes a block, so the
number of bytes is enough. -/
def forwardBlocks (fuel : Nat) (d : List Byte) (s : State) : Except Cause (State × List Byte) :=
  match fuel with
  | 0 => .ok (s, d)
  | fuel + 1 =>
    if s.bw ≤ d.length then
      match mixBlock (d.take s.bw) s with
      | .error c => .error c
      | .ok s1 => forwardBlocks fuel (d.drop s.bw) s1
    else .ok (s, d)

/-- Step (c) of R193: keep the leftover. -/
def keepLeftover (d : List Byte) (s : State) : State :=
  setBuflen (s.buflen.val + d.length) (appendBytes d s)

/-- Steps (a), (b), (c) of R193 in order. -/
def putBytes (d : List Byte) (s : State) : Except Cause State :=
  match fillBuffer d s with
  | .error c => .error c
  | .ok (s1, d1) =>
    match forwardBlocks d1.length d1 s1 with
    | .error c => .error c
    | .ok (s2, d2) => .ok (keepLeftover d2 s2)

/-- PUT's body (R193). -/
def putBody (d : List Byte) (s : State) : Body :=
  match s.phase with
  | .idle => .error .notConfigured
  | .finished => .error .putAfterFinish
  | .active =>
    match putBytes d s with
    | .error c => .error c
    | .ok s' => .ok (s', [])

/-- Ingest the remainder, if there is one (R195). -/
def takeTail (s : State) : Except Cause State :=
  if s.buflen.val = 0 then .ok s else mixTail s.buffered s

/-- The tail and the finalization of R195. -/
def finalizeHash (s : State) : Except Cause State :=
  match takeTail s with
  | .error c => .error c
  | .ok s1 => mixFinalize s1

/-- Serialize into DIGEST, empty the buffer, PHASE FINISHED (R195). -/
def deliverDigest (s : State) : Body :=
  match mixGetBytes s with
  | .error c => .error c
  | .ok bs =>
    let s := setBuflen 0 { s with digest := digestReg bs, phase := .finished }
    .ok (s, digestWords s.variant s.digest)

/-- FINISH's body (R195). -/
def finishBody (s : State) : Body :=
  match s.phase with
  | .idle => .error .notConfigured
  | .finished => .error .finishAfterFinish
  | .active =>
    match finalizeHash s with
    | .error c => .error c
    | .ok s' => deliverDigest s'

/-- PUT (R193). -/
def execPut (data : List Byte) (s : State) : Answer := perform (Instr.header (.put data)) (putBody data) s

/-- FINISH (R195). -/
def execFinish (s : State) : Answer := perform (Instr.header .finish) finishBody s

/-- `PUT_BYTE(x)` of R194. -/
def putByte (x : Byte) (s : State) : Except Cause State :=
  let s1 := appendBytes [x] s
  if s.buflen.val + 1 = s.bw then
    match mixBlock (bufRead s.bw s1.buf) s1 with
    | .error c => .error c
    | .ok s2 => .ok (setBuflen 0 s2)
  else .ok (setBuflen (s.buflen.val + 1) s1)

/-- `PUT_BYTE` on each byte in order (R194). -/
def putSerial : List Byte → State → Except Cause State
  | [], s => .ok s
  | x :: xs, s =>
    match putByte x s with
    | .error c => .error c
    | .ok s' => putSerial xs s'

end Sys2Proof.Machine
end

