-- ==== Sys2Proof/Machine/Dispatch.lean ====
section
/-! DEFINITION. One arm per command of spec/opcode_table.json. -/

namespace Sys2Proof.Machine

def exec (i : Instr) (s : State) : Host.Outcome State Fault Refusal :=
  match i with
  | .init op => Sys2Proof.Machine.execInit op s
  | .start => Sys2Proof.Machine.execStart s
  | .put data => Sys2Proof.Machine.execPut data s
  | .finish => Sys2Proof.Machine.execFinish s
  | .fmix32 p0 => Sys2Proof.Machine.execFmix32 p0 s
  | .fmix64 p0 p1 => Sys2Proof.Machine.execFmix64 p0 p1 s

end Sys2Proof.Machine
end

