-- ==== Sys2Proof/Machine/Fetch.lean ====
section
/-! DEFINITION. Taking the next command of the host's stream (30_encoding.md R70). -/

namespace Sys2Proof.Machine

/-- Take one command from the input and perform it (R70). A header that spells no command takes its fault (R252 checks 1
and 2, R253); its frame's words have been consumed (R254). Too few words: no step (R297). -/
def takeCommand (s : State) : Host.Outcome State Fault Refusal :=
  match decode s.input with
  | .noHeader => .fault .awaitingHeader
  | .short => .fault .awaitingPayload
  | .reject r h rest => .next (raiseFault (rejectCause r) h { s with input := rest })
  | .instr i rest => exec i { s with input := rest }

end Sys2Proof.Machine
end

