-- ==== Sys2Proof/Machine/Step.lean ====
section
/-! DEFINITION. One step of the block: the reset the platform asks for, or the next command of the host's stream. -/

namespace Sys2Proof.Machine

/-- One step: reset when asked for (R290), in any state; no step while FAULT = 1 (R255); otherwise one command. -/
def step (s : State) : Host.Outcome State Fault Refusal :=
  if s.resetLine then .next (resetEvent s)
  else if s.fault then .fault .stopped
  else takeCommand s

/-- `s` with the command of an opcode-table word at the front of its input, as if the host had sent it first, and no reset
asked for (log 16). -/
def State.withFetchWord (s : State) (nbits w : Nat) : State :=
  { s with input := tableCommand nbits w ++ s.input, resetLine := false }

end Sys2Proof.Machine
end

