-- ==== Sys2Proof/Machine/HostPort.lean ====
section
/-! DEFINITION. What the host and the platform can do to the block between steps (00_scope.md R14, 70_reset_and_hazards.md
R290, R297). None of these is a step of the block. -/

namespace Sys2Proof.Machine

/-- The host sends words (R70, R297 item 1). -/
def send (ws : List Word) (s : State) : State := { s with input := s.input ++ ws }

/-- The host sends commands (R60). -/
def sendCommands (is : List Instr) (s : State) : State := send (encodeAll is) s

/-- The host sends the words that a byte-serial link has carried whole (R53, D22; log 17). -/
def sendLinkBytes (bs : List Byte) (s : State) : State := send (linkWords bs) s

/-- The host takes every response word emitted so far, in order (R297 item 2). -/
def takeResponses (s : State) : List Word × State := (s.output, { s with output := [] })

/-- The platform asks for reset (R290). -/
def requestReset (s : State) : State := { s with resetLine := true }

end Sys2Proof.Machine
end

