-- ==== Sys2Proof/Machine/Platform.lean ====
section
/-! DEFINITION. Several instances side by side (00_scope.md R7 `N_INSTANCES`, 20_memory.md R62, R63, 60_exceptions.md R265):
each is a block of its own, they share nothing, and an instance that has not exactly one host is refused (D19, U6; log 13). -/

namespace Sys2Proof.Machine

/-- An instance and how many hosts drive it. -/
structure Attached where
  hosts : Nat
  block : State
  deriving DecidableEq, Repr

/-- One step of one instance. -/
def stepAttached (a : Attached) : Host.Outcome Attached Fault Refusal :=
  if a.hosts = 1 then
    match step a.block with
    | .next s => .next { a with block := s }
    | .fault r => .fault r
    | .refused r => .refused r
  else .refused .notOneHost

/-- One step of instance `k` of a platform. -/
def stepInstance (p : List Attached) (k : Fin p.length) : Host.Outcome (List Attached) Fault Refusal :=
  match stepAttached p[k] with
  | .next a => .next (p.set k a)
  | .fault r => .fault r
  | .refused r => .refused r

end Sys2Proof.Machine
end

