-- ==== Sys2Proof/Machine/Pseudo.lean ====
section
/-! DEFINITION. Command sequences (R60) and the pseudo-instructions PUTN, HASH and REHASH (30_encoding.md R87). -/

namespace Sys2Proof.Machine

/-- Perform commands one after another, each seeing every effect of the earlier ones (R60); stop at the first that has no
next state. -/
def execAll : List Instr → State → Answer
  | [], s => .next s
  | i :: is, s =>
    match exec i s with
    | .next s' => execAll is s'
    | .fault r => .fault r
    | .refused r => .refused r

/-- `q` PUTs of 255 bytes in stream order, then one PUT of what is left, if anything is (R87). -/
def putChunks (q : Nat) (d : List Byte) : List Instr :=
  match q with
  | 0 => if d.length = 0 then [] else [.put d]
  | q + 1 => .put (d.take maxPutLen) :: putChunks q (d.drop maxPutLen)

/-- `PUTN <bytes>` (R87). -/
def putn (d : List Byte) : List Instr := putChunks (d.length / maxPutLen) d

/-- `HASH <variant>, <seed>, <bytes>` (R87, R198). -/
def hashCommands (op : SeedOperand) (d : List Byte) : List Instr := .init op :: (putn d ++ [.finish])

/-- `REHASH <bytes>` (R87). -/
def rehashCommands (d : List Byte) : List Instr := .start :: (putn d ++ [.finish])

end Sys2Proof.Machine
end

