-- ==== Sys2Proof/Machine/Reference.lean ====
section
/-! DEFINITION. The hash of a byte sequence as one function, for each variant: 41_mixer32.md R137, 42_mixer128_x86.md R156,
43_mixer128_x64.md R176. No buffer, phase or command occurs here. -/

namespace Sys2Proof.Machine

/-- Mix the first `k` blocks of `bw` bytes of `S` in order. -/
def foldBlocks {α : Type} (bw : Nat) (mix : List Byte → α → α) (k : Nat) (S : List Byte) (h : α) : α :=
  match k with
  | 0 => h
  | k + 1 => foldBlocks bw mix k (S.drop bw) (mix (S.take bw) h)

/-- The bytes after the last whole block of `bw` bytes. -/
def tailBytes (bw : Nat) (S : List Byte) : List Byte := S.drop (bw * (S.length / bw))

/-- `MUR32(s, S)` (R137). -/
def mur32Hash (s : Word) (S : List Byte) : List Byte :=
  let h := foldBlocks 4 mur32Block (S.length / 4) S s
  let h := mur32Tail (tailBytes 4 S) h
  serializeMur32 (mur32Finalize (BitVec.ofNat 64 S.length) h)

/-- The X86_128 hash of `S` with seeds `s` (R156). -/
def x86Hash (s : X86Lanes) (S : List Byte) : List Byte :=
  let l := foldBlocks 16 x86Block (S.length / 16) S s
  let l := x86Tail (tailBytes 16 S) l
  serializeX86 hardware.x86Order (x86Finalize (BitVec.ofNat 64 S.length) l)

/-- The X64_128 hash of `S` with seeds `s` (R176). -/
def x64Hash (s : X64Lanes) (S : List Byte) : List Byte :=
  let l := foldBlocks 16 x64Block (S.length / 16) S s
  let l := x64Tail (tailBytes 16 S) l
  serializeX64 hardware.x64Order (x64Finalize (BitVec.ofNat 64 S.length) l)

/-- The hash of `S` under an INIT operand. -/
def referenceHash (op : SeedOperand) (S : List Byte) : List Byte :=
  match op with
  | .mur32 _ s => mur32Hash s S
  | .x86Broadcast s => x86Hash { h1 := s, h2 := s, h3 := s, h4 := s } S
  | .x86PerLane s1 s2 s3 s4 => x86Hash { h1 := s1, h2 := s2, h3 := s3, h4 := s4 } S
  | .x64Broadcast s => x64Hash { h1 := s, h2 := s } S
  | .x64PerLane s1 s2 => x64Hash { h1 := s1, h2 := s2 } S

end Sys2Proof.Machine
end

