-- ==== Sys2Proof/Machine/Render.lean ====
section
/-! DEFINITION. The two text forms the spec fixes outside the block: the hex string of a digest (45_digest_serializer.md
R238, D17) and the assembler form of a command (30_encoding.md R86). No step reads them. A text is a list of characters. -/

namespace Sys2Proof.Machine

/-- One uppercase hex digit (R238). -/
def hexDigit (n : Nat) : Char := if n < 10 then Char.ofNat (48 + n) else Char.ofNat (55 + n)

/-- A byte as two uppercase hex digits, high nibble first (R238). -/
def hexByte (b : Byte) : List Char := [hexDigit (b.toNat / 16), hexDigit (b.toNat % 16)]

/-- The hex string of digest bytes, byte 0 first (R238). -/
def hexDigest (bs : List Byte) : List Char := bs.flatMap hexByte

/-- A number of `n` bytes as `0x` and its digits, most significant first (R86). -/
def hexNumber {w : Nat} (n : Nat) (v : BitVec w) : List Char := '0' :: 'x' :: hexDigest (bytesLe n v).reverse

/-- Items separated by a comma and a space. -/
def commaList : List (List Char) → List Char
  | [] => []
  | [x] => x
  | x :: xs => x ++ [',', ' '] ++ commaList xs

/-- A seed list in braces (R86, SM = 1). -/
def braced (xs : List (List Char)) : List Char := Char.ofNat 123 :: (commaList xs ++ [Char.ofNat 125])

/-- The operands of INIT in the assembler (R86). -/
def asmSeed : SeedOperand → List Char
  | .mur32 .broadcast s => "mur32, ".toList ++ hexNumber 4 s
  | .mur32 .perLane s => "mur32, ".toList ++ braced [hexNumber 4 s]
  | .x86Broadcast s => "x86_128, ".toList ++ hexNumber 4 s
  | .x86PerLane s1 s2 s3 s4 =>
    "x86_128, ".toList ++ braced [hexNumber 4 s1, hexNumber 4 s2, hexNumber 4 s3, hexNumber 4 s4]
  | .x64Broadcast s => "x64_128, ".toList ++ hexNumber 8 s
  | .x64PerLane s1 s2 => "x64_128, ".toList ++ braced [hexNumber 8 s1, hexNumber 8 s2]

/-- A command in the assembler syntax, its bytes as numbers (R86). -/
def asm : Instr → List Char
  | .init op => "INIT ".toList ++ asmSeed op
  | .start => "START".toList
  | .put data => "PUT [".toList ++ commaList (data.map (hexNumber 1)) ++ [']']
  | .finish => "FINISH".toList
  | .fmix32 p0 => "FMIX32 ".toList ++ hexNumber 4 p0
  | .fmix64 p0 p1 => "FMIX64 ".toList ++ hexNumber 8 (joinWords p0 p1)

end Sys2Proof.Machine
end

