-- ==== Sys2Proof/Safety.lean ====
section
/-! DEFINITION. The terms claims use: the invariants of 10_state.md R36, of the fault registers (R31, R32, R262) and of SEED
(R23), the checks of 60_exceptions.md R252 as one function of the header and PHASE, and agreement of two states on
everything but the bytes of BUF no rule reads (R26). -/

namespace Sys2Proof.Machine

/-- The invariants of R36, clause by clause. -/
structure WrapperInv (s : State) : Prop where
  /-- (a) -/
  buflen_lt : s.buflen.val < s.bw
  /-- (b) -/
  idle_clean : s.phase = .idle → s.mixphase = .blocks ∧ s.buflen = 0 ∧ s.count = 0
  /-- (c) -/
  active_blocks : s.phase = .active → s.mixphase = .blocks
  /-- (d) -/
  finished_finalized : s.phase = .finished → s.mixphase = .finalized ∧ s.buflen = 0
  /-- (e) -/
  mur32_high : s.variant = .mur32 → s.acc.extractLsb' 32 96 = 0 ∧ s.digest.extractLsb' 32 96 = 0
  /-- (f) -/
  count_whole_blocks : s.mixphase = .blocks → s.count.toNat % s.bw = 0

/-- The causes a command can raise (R251 codes 1 to 5; R262: codes 6 to 10 never arise from commands). -/
def commandCauses : List Cause :=
  [.illegalOpcode, .reservedField, .notConfigured, .putAfterFinish, .finishAfterFinish]

/-- FAULT, CAUSE and FAULT_HDR agree: no cause and no header without a fault (R31, R32), a command's cause with one
(R262). -/
structure FaultInv (s : State) : Prop where
  none_without_fault : s.fault = false → s.cause = .none ∧ s.faultHdr = 0
  cause_of_fault : s.fault = true → s.cause ∈ commandCauses

/-- The bits of SEED outside the variant's views are 0 (R23). -/
def SeedInv (s : State) : Prop := s.variant = .mur32 → s.seed.extractLsb' 32 96 = 0

/-- Checks 1 to 5 of R252 in their order: the first that fails, as a function of the header's numeric fields and PHASE. -/
def firstFailingCheck (h : Word) (p : Phase) : Option Cause :=
  let op := h.toNat % 16
  let var := h.toNat / 16 % 4
  let sm := h.toNat / 64 % 2
  let bit7 := h.toNat / 128 % 2
  let len := h.toNat / 256 % 256
  let high := h.toNat / 65536
  if op = 0 ∨ 7 ≤ op then some .illegalOpcode
  else if high ≠ 0 ∨ bit7 ≠ 0 ∨ (op ≠ 3 ∧ len ≠ 0) ∨ (op ≠ 1 ∧ (var ≠ 0 ∨ sm ≠ 0)) ∨ (op = 1 ∧ var = 3) then
    some .reservedField
  else if (op = 2 ∨ op = 3 ∨ op = 4) ∧ p = .idle then some .notConfigured
  else if op = 3 ∧ p = .finished then some .putAfterFinish
  else if op = 4 ∧ p = .finished then some .finishAfterFinish
  else none

/-- How many data words a performed command returns (R82), by its OP and VARIANT. -/
def dataWordCount (op : Nat) (v : Variant) : Nat :=
  match op with
  | 4 => digestWidth v / 4
  | 5 => 1
  | 6 => 2
  | _ => 0

/-- A header with OP `op` for which `bad` holds faults RESERVED_FIELD once its frame has arrived (R76, R252, R253). -/
def FaultsReserved (op : Nat) (bad : Word → Prop) : Prop :=
  ∀ (s : State) (h : Word) (ws : List Word), s.resetLine = false → s.fault = false → s.input = h :: ws →
    payloadLen h ≤ ws.length → h.toNat % 16 = op → bad h →
    step s = .next (raiseFault .reservedField h { s with input := ws.drop (payloadLen h) })

/-- The bytes PUT has to place: those buffered, then those fed (R193, R194). -/
def pending (s : State) (d : List Byte) : List Byte := s.buffered ++ d

/-- How many whole blocks those are. -/
def wholeBlocks (s : State) (d : List Byte) : Nat := (s.buflen.val + d.length) / s.bw

/-- COUNT after FINISH: the tail's bytes are added (R130, R195). -/
def finishCount (s : State) : BitVec 64 := s.count + BitVec.ofNat 64 s.buflen.val

/-- ACC after FINISH: the tail, if there is one, then finalization (R195). -/
def finishAcc (s : State) : Reg128 :=
  finalAcc s.variant (finishCount s) (if s.buflen.val = 0 then s.acc else tailAcc s.variant s.buffered s.acc)

/-- DIGEST after FINISH (R195). -/
def finishDigest (s : State) : Reg128 := digestReg (digestBytes s.variant (finishAcc s))

/-- Two states agree but for bytes of BUF at indices at or above BUFLEN. -/
def AgreeButStale (s t : State) : Prop :=
  t = { s with buf := t.buf } ∧ bufRead s.buflen.val t.buf = bufRead s.buflen.val s.buf

end Sys2Proof.Machine
end

