-- ==== Sys2Proof/Certificates/Slice0/Obligations.lean ====
section
/-! DEFINITION. The statements for the provers. Each docstring names the rule or section of the spec it formalises. -/

open Sys2Proof Sys2Proof.Machine

/-! ### Words and commands -/

/-- 30_encoding.md sections 1 and 6: the command at the front of the input is performed, its words consumed. The first
clause is for a command as the encoder spells it, the second for any words that decode to it. -/
def Obligations.StepRunsDecodedCommand : Prop :=
  (∀ (s : State) (i : Instr) (rest : List Word), s.resetLine = false → s.fault = false → i.wf = true →
    s.input = encode i ++ rest → step s = exec i { s with input := rest }) ∧
  (∀ (s : State) (i : Instr) (rest : List Word), s.resetLine = false → s.fault = false →
    decode s.input = .instr i rest → step s = exec i { s with input := rest })

/-- 95_test_vectors.md sections 2.10 and 3: words of the spec, and what they spell. -/
def Obligations.SpecWordsDecode : Prop :=
  decode [0x00000051, 1, 2, 3, 4] = .instr (.init (.x86PerLane 1 2 3 4)) [] ∧
  decode [0x00000021, 7, 9] = .instr (.init (.x64Broadcast 0x0000000900000007)) [] ∧
  decode [0x00000002] = .instr .start [] ∧
  decode [0x00000503, 0x64636261, 0xFFFFFF65, 4] = .instr (.put [0x61, 0x62, 0x63, 0x64, 0x65]) [4] ∧
  decode [0x00000004] = .instr .finish [] ∧
  decode [0x00000005, 1] = .instr (.fmix32 1) [] ∧
  decode [0x00000006, 1] = .short ∧
  decode [0x80000007] = .reject .illegalOpcode 0x80000007 [] ∧
  decode [0x00000104] = .reject .reservedField 0x00000104 []

/-- 30_encoding.md: no bit of an encoding is dropped. -/
def Obligations.DecodeEncodeRoundTrip : Prop :=
  ∀ (i : Instr) (rest : List Word), i.wf = true → decode (encode i ++ rest) = .instr i rest

/-- 30_encoding.md sections 5 and 6, 92_eei_decisions.md D21: every word either spells exactly one command or faults. The
words of a decoded command are its encoding; only the ignored bytes of PUT's last payload word may differ. -/
def Obligations.DecodedWordsAreTheEncoding : Prop :=
  ∀ (ws : List Word) (i : Instr) (rest : List Word), decode ws = .instr i rest →
    i.wf = true ∧ ∃ p, ws = i.header :: (p ++ rest) ∧ p.length = i.payload.length ∧
      ((∀ d, i ≠ .put d) → p = i.payload) ∧ (∀ d, i = .put d → unpackBytes d.length p = d)

/-- R77: the payload length, a function of the header alone. A header with a reserved-field violation is framed with the
`P(H)` of its OP; it faults, and the block performs nothing after it. -/
def Obligations.PayloadLengthTable : Prop :=
  (∀ h : Word,
    let op := h.toNat % 16
    let var := h.toNat / 16 % 4
    let sm := h.toNat / 64 % 2
    let len := h.toNat / 256 % 256
    (op = 1 → var = 0 → payloadLen h = 1) ∧
    (op = 1 → var = 1 → sm = 0 → payloadLen h = 1) ∧
    (op = 1 → var = 1 → sm = 1 → payloadLen h = 4) ∧
    (op = 1 → var = 2 → sm = 0 → payloadLen h = 2) ∧
    (op = 1 → var = 2 → sm = 1 → payloadLen h = 4) ∧
    (op = 1 → var = 3 → payloadLen h = 0) ∧
    (op = 2 → payloadLen h = 0) ∧
    (op = 3 → len ≤ 4 * payloadLen h ∧ 4 * payloadLen h < len + 4) ∧
    (op = 4 → payloadLen h = 0) ∧
    (op = 5 → payloadLen h = 1) ∧
    (op = 6 → payloadLen h = 2) ∧
    (op = 0 ∨ 7 ≤ op → payloadLen h = 0)) ∧
  (∀ (s : State) (h : Word) (ws : List Word) (r : Reject), s.resetLine = false → s.fault = false → s.input = h :: ws →
    payloadLen h ≤ ws.length → decodeHeader h = .error r →
    ∃ t, step s = .next t ∧ t.fault = true ∧ t.faultHdr = h ∧ t.input = ws.drop (payloadLen h) ∧
      step t = .fault .stopped)

/-- 30_encoding.md section 1, 70_reset_and_hazards.md section 3: a command consumes its header and the words it frames;
extra words are the next header. -/
def Obligations.StepConsumesOneFrame : Prop :=
  ∀ (s t : State), s.resetLine = false → step s = .next t →
    ∃ h ws, s.input = h :: ws ∧ payloadLen h ≤ ws.length ∧ t.input = ws.drop (payloadLen h)

/-- R79: PUT payload packing, and the bytes past LEN ignored. -/
def Obligations.PutPayloadPacking : Prop :=
  ∀ (len : Nat) (p rest : List Word), len ≤ 255 → p.length = (len + 3) / 4 →
    (∃ d, decode (BitVec.ofNat 32 (3 + 256 * len) :: (p ++ rest)) = .instr (.put d) rest ∧ d.length = len ∧
      ∀ j, j < len → d[j]? = some ((p.getD (j / 4) 0).extractLsb' (8 * (j % 4)) 8)) ∧
    (∀ q : List Word, q.length = p.length →
      (∀ j, j < len →
        (q.getD (j / 4) 0).extractLsb' (8 * (j % 4)) 8 = (p.getD (j / 4) 0).extractLsb' (8 * (j % 4)) 8) →
      decode (BitVec.ofNat 32 (3 + 256 * len) :: (q ++ rest)) = decode (BitVec.ofNat 32 (3 + 256 * len) :: (p ++ rest)))

/-- R78: the seeds each INIT header and payload writes. -/
def Obligations.InitSeedTable : Prop :=
  ∀ (s : State) (p0 p1 p2 p3 : Word) (rest : List Word), s.resetLine = false → s.fault = false →
    (s.input = 0x00000001 :: p0 :: rest ∨ s.input = 0x00000041 :: p0 :: rest →
      ∃ t, step s = .next t ∧ t.variant = .mur32 ∧ mur32View t.seed = p0) ∧
    (s.input = 0x00000011 :: p0 :: rest →
      ∃ t, step s = .next t ∧ t.variant = .x86 ∧ x86View t.seed = { h1 := p0, h2 := p0, h3 := p0, h4 := p0 }) ∧
    (s.input = 0x00000051 :: p0 :: p1 :: p2 :: p3 :: rest →
      ∃ t, step s = .next t ∧ t.variant = .x86 ∧ x86View t.seed = { h1 := p0, h2 := p1, h3 := p2, h4 := p3 }) ∧
    (s.input = 0x00000021 :: p0 :: p1 :: rest →
      ∃ t, step s = .next t ∧ t.variant = .x64 ∧
        x64View t.seed =
          { h1 := p1.zeroExtend 64 <<< 32 ||| p0.zeroExtend 64, h2 := p1.zeroExtend 64 <<< 32 ||| p0.zeroExtend 64 }) ∧
    (s.input = 0x00000061 :: p0 :: p1 :: p2 :: p3 :: rest →
      ∃ t, step s = .next t ∧ t.variant = .x64 ∧
        x64View t.seed =
          { h1 := p1.zeroExtend 64 <<< 32 ||| p0.zeroExtend 64, h2 := p3.zeroExtend 64 <<< 32 ||| p2.zeroExtend 64 })

/-- 20_memory.md section 2, 92_eei_decisions.md D22: a byte-serial link carries words whole and in order, byte 0 of a word
in its bits 7:0. The two link functions are the model's (log 17). -/
def Obligations.ByteLinkCarriesWords : Prop :=
  (∀ ws : List Word, linkWords (linkBytes ws) = ws) ∧
  (∀ (ws : List Word) (j : Nat), j < 4 * ws.length →
    (linkBytes ws)[j]? = some ((ws.getD (j / 4) 0).extractLsb' (8 * (j % 4)) 8))

/-- 30_encoding.md section 7: PUTN's commands carry the bytes in stream order, 255 to a PUT but for the last, none of them
empty. -/
def Obligations.PutnSplitsInOrder : Prop :=
  ∀ d : List Byte, ∃ cs : List (List Byte), putn d = cs.map Instr.put ∧ cs.flatten = d ∧
    (∀ c ∈ cs, 0 < c.length ∧ c.length ≤ 255) ∧ (∀ c ∈ cs.dropLast, c.length = 255)

/-- R60, 20_memory.md section 5: the words of a command sequence, sent in order, are performed one command a step, in that
order, each seeing every effect of the earlier ones. -/
def Obligations.StepsPerformTheStream : Prop :=
  ∀ (is : List Instr) (s : State) (rest : List Word), s.resetLine = false → (∀ i ∈ is, i.wf = true) →
    s.input = encodeAll is ++ rest →
    Host.Core.run core is.length s = execAll is { s with input := rest }

/-! ### Reset, faults, waiting -/

/-- 70_reset_and_hazards.md section 1: reset writes every element to its reset value, discards the words of a command not
yet started and emits no response; it is applied in any state. BUF is unspecified there and not stated. That the responses
emitted before stay with the host (`t.output = s.output`, beyond adding no word) is the model's (log 18, DEDUCED). -/
def Obligations.ResetWritesEveryElement : Prop :=
  ∀ s : State, s.resetLine = true →
    ∃ t, step s = .next t ∧ t.phase = .idle ∧ t.variant = .mur32 ∧ t.seed = 0 ∧ t.acc = 0 ∧ t.count = 0 ∧
      t.buflen = 0 ∧ t.mixphase = .blocks ∧ t.digest = 0 ∧ t.fault = false ∧ t.cause = .none ∧ t.faultHdr = 0 ∧
      t.input = [] ∧ t.output = s.output

/-- 70_reset_and_hazards.md section 1, 10_state.md section 6: the step that takes the reset leads to the state after reset,
and that state satisfies the invariants. That BUF is 0 there, that the request is taken and that words already emitted stay
with the host are the model's (log 4, 3, 18). -/
def Obligations.ResetStateMeetsInvariants : Prop :=
  (∀ s : State, s.resetLine = true → step s = .next { State.reset with output := s.output }) ∧
  WrapperInv State.reset ∧ FaultInv State.reset ∧ SeedInv State.reset

/-- 10_state.md section 6: every step keeps the invariants (a) to (f). -/
def Obligations.StepKeepsWrapperInvariants : Prop :=
  ∀ s t : State, WrapperInv s → step s = .next t → WrapperInv t

/-- 10_state.md section 4, 60_exceptions.md section 2: CAUSE and FAULT_HDR are empty without a fault, and with one CAUSE is
one of 1 to 5: the mixer-internal causes never arise from commands. -/
def Obligations.StepKeepsFaultRegisters : Prop :=
  ∀ s t : State, WrapperInv s → FaultInv s → step s = .next t → FaultInv t

/-- 10_state.md section 2: the bits of SEED outside the variant's views stay 0. -/
def Obligations.StepKeepsUnusedSeedBitsZero : Prop :=
  ∀ s t : State, SeedInv s → step s = .next t → SeedInv t

/-- R252: the first failing check gives the cause and nothing else happens; a command that passes checks 1 to 5 is
performed; MIX_TAIL checks MIXPHASE before the length. -/
def Obligations.FirstFailingCheckGivesCause : Prop :=
  (∀ (s : State) (h : Word) (ws : List Word), s.resetLine = false → s.fault = false → s.input = h :: ws →
    payloadLen h ≤ ws.length →
    (∀ c, firstFailingCheck h s.phase = some c →
      step s = .next (raiseFault c h { s with input := ws.drop (payloadLen h) })) ∧
    (firstFailingCheck h s.phase = none → WrapperInv s → ∃ t, step s = .next t ∧ t.fault = false)) ∧
  (∀ (s : State) (b : List Byte),
    (s.mixphase ≠ .blocks → mixTail b s = .error .tailNotAccepted) ∧
    (s.mixphase = .blocks → s.bw ≤ b.length → mixTail b s = .error .tailTooLong))

/-- R253: a faulting command changes nothing but FAULT, CAUSE and FAULT_HDR, and answers its status word alone. -/
def Obligations.FaultEntryIsPrecise : Prop :=
  ∀ s t : State, s.resetLine = false → step s = .next t → t.fault = true →
    ∃ h ws status, s.input = h :: ws ∧ status.toNat = 1 + 16 * t.cause.code.toNat + 256 * (h.toNat % 16) ∧
      t = { s with
        fault := true
        cause := t.cause
        faultHdr := h
        input := ws.drop (payloadLen h)
        output := s.output ++ [status] }

/-- R255: while FAULT = 1 the block performs no further command. -/
def Obligations.FaultedBlockPerformsNothing : Prop :=
  ∀ s : State, s.fault = true →
    (s.resetLine = false → step s = .fault .stopped) ∧ ∀ i : Instr, exec i s = .fault .stopped

/-- R256: only reset clears FAULT, CAUSE and FAULT_HDR; no command writes them back. -/
def Obligations.OnlyResetLeavesTheFault : Prop :=
  (∀ s t : State, s.fault = true → step s = .next t → s.resetLine = true) ∧
  (∀ s : State, s.resetLine = true → ∃ t, step s = .next t ∧ t.fault = false ∧ t.cause = .none ∧ t.faultHdr = 0)

/-- 70_reset_and_hazards.md sections 3 and 4: the only ways to make no step are the faulted state and the wait for words;
every command whose words have arrived completes. The names of the waits are the model's (log 6). -/
def Obligations.NoStepOnlyWhenFaultedOrWaiting : Prop :=
  ∀ s : State, s.resetLine = false → s.fault = false →
    (s.input = [] → step s = .fault .awaitingHeader) ∧
    (∀ h ws, s.input = h :: ws →
      (ws.length < payloadLen h → step s = .fault .awaitingPayload) ∧
      (payloadLen h ≤ ws.length → ∃ t, step s = .next t))

/-- R81: the format of the status word every step but reset answers first, and 30_encoding.md section 4: how many data
words follow it. -/
def Obligations.ResponseFormat : Prop :=
  ∀ s t : State, s.resetLine = false → step s = .next t →
    ∃ h ws status data, s.input = h :: ws ∧ t.output = s.output ++ status :: data ∧
      status.toNat % 2 = (if t.fault then 1 else 0) ∧
      status.toNat / 2 % 8 = 0 ∧
      status.toNat / 16 % 16 = (if t.fault then t.cause.code.toNat else 0) ∧
      status.toNat / 256 % 16 = h.toNat % 16 ∧
      status.toNat / 4096 = 0 ∧
      data.length = (if t.fault then 0 else dataWordCount (h.toNat % 16) s.variant)

/-! ### Commands -/

/-- R191: INIT, in every phase: its words, its effect, its fault. -/
def Obligations.InitConstructs : Prop :=
  (∀ (sm : SeedMode) (s : Word),
    encode (.init (.mur32 sm s)) = [(if sm = .perLane then 0x00000041 else 0x00000001), s]) ∧
  (∀ s : Word, encode (.init (.x86Broadcast s)) = [0x00000011, s]) ∧
  (∀ s1 s2 s3 s4 : Word, encode (.init (.x86PerLane s1 s2 s3 s4)) = [0x00000051, s1, s2, s3, s4]) ∧
  (∀ p0 p1 : Word, encode (.init (.x64Broadcast (p1 ++ p0))) = [0x00000021, p0, p1]) ∧
  (∀ p0 p1 p2 p3 : Word, encode (.init (.x64PerLane (p1 ++ p0) (p3 ++ p2))) = [0x00000061, p0, p1, p2, p3]) ∧
  (∀ (s : State) (op : SeedOperand), s.fault = false →
    exec (.init op) s = .next { s with
      seed := seedView op
      variant := op.variant
      acc := seedView op
      count := 0
      mixphase := .blocks
      buflen := 0
      digest := 0
      phase := .active
      output := s.output ++ [0x00000100] }) ∧
  FaultsReserved 1 fun h =>
    h.toNat / 16 % 4 = 3 ∨ h.toNat / 128 % 2 ≠ 0 ∨ h.toNat / 256 % 256 ≠ 0 ∨ h.toNat / 65536 ≠ 0

/-- R192: START restores the seeded initial state: its word, its effect, its faults. -/
def Obligations.StartRestarts : Prop :=
  encode .start = [0x00000002] ∧
  (∀ s : State, s.fault = false → s.phase ≠ .idle →
    exec .start s = .next { s with
      acc := if s.variant = .mur32 then (s.seed.extractLsb' 0 32).zeroExtend 128 else s.seed
      count := 0
      mixphase := .blocks
      buflen := 0
      digest := 0
      phase := .active
      output := s.output ++ [0x00000200] }) ∧
  (∀ s : State, s.fault = false → s.phase = .idle → exec .start s = .next (raiseFault .notConfigured 0x00000002 s)) ∧
  FaultsReserved 2 fun h => h.toNat / 16 ≠ 0

/-- R193: PUT. The buffered bytes and the bytes fed are one stream: its whole blocks are mixed in order, its remainder is
buffered, nothing else changes; its words and its faults. -/
def Obligations.PutMixesWholeBlocks : Prop :=
  (∀ d : List Byte, d.length ≤ 255 →
    ∃ p, encode (.put d) = BitVec.ofNat 32 (3 + 256 * d.length) :: p ∧ p.length = (d.length + 3) / 4 ∧
      ∀ j, j < d.length → d[j]? = some ((p.getD (j / 4) 0).extractLsb' (8 * (j % 4)) 8)) ∧
  (∀ (s : State) (d : List Byte), WrapperInv s → s.fault = false → s.phase = .active →
    ∃ t, exec (.put d) s = .next t ∧
      t = { s with
        acc := foldBlocks s.bw (blockAcc s.variant) (wholeBlocks s d) (pending s d) s.acc
        count := s.count + BitVec.ofNat 64 (s.bw * wholeBlocks s d)
        buf := t.buf
        buflen := t.buflen
        output := s.output ++ [0x00000300] } ∧
      t.buflen.val = (s.buflen.val + d.length) % s.bw ∧
      t.buffered = (pending s d).drop (s.bw * wholeBlocks s d) ∧
      (d = [] → t = { s with output := s.output ++ [0x00000300] })) ∧
  (∀ (s : State) (d : List Byte), s.fault = false → s.phase = .idle →
    exec (.put d) s = .next (raiseFault .notConfigured (Instr.header (.put d)) s)) ∧
  (∀ (s : State) (d : List Byte), s.fault = false → s.phase = .finished →
    exec (.put d) s = .next (raiseFault .putAfterFinish (Instr.header (.put d)) s)) ∧
  FaultsReserved 3 fun h => h.toNat / 16 % 16 ≠ 0 ∨ h.toNat / 65536 ≠ 0

/-- R195: FINISH: its word, the remainder, finalization, serialization, the digest words, its faults. -/
def Obligations.FinishDeliversDigest : Prop :=
  encode .finish = [0x00000004] ∧
  (∀ s : State, WrapperInv s → s.fault = false → s.phase = .active →
    exec .finish s = .next { s with
      acc := finishAcc s
      count := s.count + BitVec.ofNat 64 s.buflen.val
      mixphase := .finalized
      digest := finishDigest s
      buflen := 0
      phase := .finished
      output := s.output ++ 0x00000400 ::
        (List.range (digestWidth s.variant / 4)).map fun j => (finishDigest s).extractLsb' (32 * j) 32 }) ∧
  (∀ s : State, s.fault = false → s.phase = .idle → exec .finish s = .next (raiseFault .notConfigured 0x00000004 s)) ∧
  (∀ s : State, s.fault = false → s.phase = .finished →
    exec .finish s = .next (raiseFault .finishAfterFinish 0x00000004 s)) ∧
  FaultsReserved 4 fun h => h.toNat / 16 ≠ 0

/-- R106: FMIX32, in every phase, writes no state. -/
def Obligations.Fmix32Answers : Prop :=
  (∀ p0 : Word, encode (.fmix32 p0) = [0x00000005, p0]) ∧
  (∀ (s : State) (p0 : Word), s.fault = false →
    exec (.fmix32 p0) s = .next { s with output := s.output ++ [0x00000500, fmix32 p0] }) ∧
  (∀ (s : State) (p0 : Word), s.fault = true → exec (.fmix32 p0) s = .fault .stopped) ∧
  (FaultsReserved 5 fun h => h.toNat / 16 ≠ 0) ∧
  fmix32 0 = 0 ∧ fmix32 0xFFFFFFFF = 0x81F16F39 ∧ fmix32 0x80000000 = 0x6D3C65A0

/-- R107: FMIX64, in every phase, writes no state; operand and result low word first. -/
def Obligations.Fmix64Answers : Prop :=
  (∀ p0 p1 : Word, encode (.fmix64 p0 p1) = [0x00000006, p0, p1]) ∧
  (∀ (s : State) (p0 p1 : Word), s.fault = false →
    exec (.fmix64 p0 p1) s = .next { s with
      output := s.output ++
        [(0x00000600 : Word),
          (fmix64 (p1.zeroExtend 64 <<< 32 ||| p0.zeroExtend 64)).extractLsb' 0 32,
          (fmix64 (p1.zeroExtend 64 <<< 32 ||| p0.zeroExtend 64)).extractLsb' 32 32] }) ∧
  (∀ (s : State) (p0 p1 : Word), s.fault = true → exec (.fmix64 p0 p1) s = .fault .stopped) ∧
  (FaultsReserved 6 fun h => h.toNat / 16 ≠ 0) ∧
  fmix64 0 = 0 ∧ fmix64 0xFFFFFFFFFFFFFFFF = 0x64B5720B4B825F21 ∧ fmix64 0x8000000000000000 = 0x8F780810AF31A493

/-- 10_state.md section 1 (the column "written by"), 60_exceptions.md section 1: which commands may change which element.
Only fault entry changes FAULT, CAUSE and FAULT_HDR, and no command changes what has arrived. -/
def Obligations.OnlyNamedCommandsWrite : Prop :=
  ∀ (i : Instr) (s t : State), exec i s = .next t →
    let isInit := ∃ op, i = .init op
    let isPut := ∃ d, i = .put d
    (t.phase ≠ s.phase → isInit ∨ i = .start ∨ i = .finish) ∧
    (t.variant ≠ s.variant → isInit) ∧
    (t.seed ≠ s.seed → isInit) ∧
    (t.acc ≠ s.acc → isInit ∨ i = .start ∨ isPut ∨ i = .finish) ∧
    (t.count ≠ s.count → isInit ∨ i = .start ∨ isPut ∨ i = .finish) ∧
    (t.buf ≠ s.buf → isPut) ∧
    (t.buflen ≠ s.buflen → isInit ∨ i = .start ∨ isPut ∨ i = .finish) ∧
    (t.mixphase ≠ s.mixphase → isInit ∨ i = .start ∨ i = .finish) ∧
    (t.digest ≠ s.digest → isInit ∨ i = .start ∨ i = .finish) ∧
    (t.fault = false → s.fault = false ∧ t.cause = s.cause ∧ t.faultHdr = s.faultHdr) ∧
    t.input = s.input ∧ t.resetLine = s.resetLine

/-- 10_state.md section 2, 41_mixer32.md section 1: after finalization the accumulator is read-only until the next START, INIT or reset. -/
def Obligations.FinishedAccumulatorReadOnly : Prop :=
  ∀ s t : State, s.resetLine = false → s.phase = .finished → step s = .next t → t.phase = .finished →
    t.acc = s.acc ∧ t.count = s.count ∧ t.digest = s.digest ∧ t.mixphase = s.mixphase ∧ t.buflen = s.buflen

/-- 90_conflicts.md C6, 92_eei_decisions.md D28: whatever was performed since the INIT, if it was no INIT and no fault
arose, START restores what the INIT constructed. -/
def Obligations.StartRestoresWhatInitConstructed : Prop :=
  ∀ (s t u : State) (op : SeedOperand) (is : List Instr), exec (.init op) s = .next t →
    (∀ i ∈ is, ∀ op', i ≠ .init op') → execAll is t = .next u → u.fault = false →
    ∃ v, exec .start u = .next v ∧ v.acc = t.acc ∧ v.seed = t.seed ∧ v.variant = t.variant ∧ v.count = t.count ∧
      v.mixphase = t.mixphase ∧ v.buflen = t.buflen ∧ v.digest = t.digest ∧ v.phase = t.phase

/-- 44_block_buffer.md section 1 (the byte-serial form): PUT has the same effect on ACC, COUNT, BUFLEN and the valid bytes
of BUF as PUT_BYTE on each byte in order. -/
def Obligations.PutEqualsByteSerialForm : Prop :=
  ∀ (s : State) (d : List Byte), WrapperInv s → s.fault = false → s.phase = .active →
    ∃ t u, exec (.put d) s = .next t ∧ putSerial d s = .ok u ∧
      t.acc = u.acc ∧ t.count = u.count ∧ t.buflen = u.buflen ∧ t.buffered = u.buffered

/-- 10_state.md section 3: no rule reads the bytes of BUF at indices at or above BUFLEN. States that agree but for them
step alike. -/
def Obligations.StaleBufferBytesNeverRead : Prop :=
  ∀ s t : State, WrapperInv s → AgreeButStale s t →
    (∀ s', step s = .next s' → ∃ t', step t = .next t' ∧ AgreeButStale s' t') ∧
    (∀ r, step s = .fault r → step t = .fault r) ∧
    (∀ r, step s = .refused r → step t = .refused r)

/-! ### The mixers and the serializer -/

/-- R100: rotation, bit by bit: identity at 0 and at W, bit `i` of the result is bit `(i - r) mod W` of the operand. -/
def Obligations.RotlRotatesLeft : Prop :=
  ∀ (w : Nat) (x : BitVec w) (r : Fin (w + 1)),
    (r.val = 0 ∨ r.val = w → rotl x r = x) ∧
    (0 < r.val → r.val < w → rotl x r = (x <<< r.val) ||| (x >>> (w - r.val))) ∧
    (∀ i, i < w → (rotl x r).getLsbD i = x.getLsbD ((i + w - r.val) % w))

/-- R101, R102, R103, R104: the primitives in natural-number arithmetic modulo `2 ^ W`, statement by statement. -/
def Obligations.PrimitivesWrapModulo : Prop :=
  (∀ (w : Nat) (k c1 c2 : BitVec w) (r : Fin (w + 1)),
    (shuffle k c1 c2 r).toNat = (rotl (BitVec.ofNat w (k.toNat * c1.toNat)) r).toNat * c2.toNat % 2 ^ w) ∧
  (∀ (w : Nat) (h k m c1 c2 n : BitVec w) (r1 r2 : Fin (w + 1)),
    (update h k m c1 c2 r1 r2 n).toNat =
      (((rotl (h ^^^ shuffle k c1 c2 r1) r2).toNat + m.toNat) * 5 + n.toNat) % 2 ^ w) ∧
  (∀ h : Word,
    let a := h.toNat ^^^ h.toNat / 2 ^ 16
    let b := a * 0x85ebca6b % 2 ^ 32
    let c := b ^^^ b / 2 ^ 13
    let d := c * 0xc2b2ae35 % 2 ^ 32
    (fmix32 h).toNat = d ^^^ d / 2 ^ 16) ∧
  (∀ k : Word64,
    let a := k.toNat ^^^ k.toNat / 2 ^ 33
    let b := a * 0xff51afd7ed558ccd % 2 ^ 64
    let c := b ^^^ b / 2 ^ 33
    let d := c * 0xc4ceb9fe1a85ec53 % 2 ^ 64
    (fmix64 k).toNat = d ^^^ d / 2 ^ 33) ∧
  fmix32 0 = 0 ∧ fmix64 0 = 0

/-- 40_primitives.md section 1: fmix32 fixes 0 and is a bijection. -/
def Obligations.Fmix32IsBijective : Prop := fmix32 0 = 0 ∧ Function.Bijective fmix32

/-- 40_primitives.md section 1: fmix64 fixes 0 and is a bijection. -/
def Obligations.Fmix64IsBijective : Prop := fmix64 0 = 0 ∧ Function.Bijective fmix64

/-- 41_mixer32.md section 1: the mixer interface: preconditions in their order, faults, common effects and nothing else. That
MIX_BLOCK answers a state for a block of any length is the model's (log 15, DESIGN CHOICE): the spec requires `BW(VARIANT)`
bytes there, says that this always holds, and names no fault. -/
def Obligations.MixerInterfaceContract : Prop :=
  ∀ (s : State) (b : List Byte),
    (∀ (v : Variant) (seed : Reg128), mixInit v seed s =
      { s with variant := v, acc := (mixInit v seed s).acc, count := 0, mixphase := .blocks } ∧
      (v = .mur32 → mur32View (mixInit v seed s).acc = mur32View seed ∧ (mixInit v seed s).acc.extractLsb' 32 96 = 0) ∧
      (v = .x86 → x86View (mixInit v seed s).acc = x86View seed) ∧
      (v = .x64 → x64View (mixInit v seed s).acc = x64View seed)) ∧
    (s.mixphase = .blocks → ∃ t, mixBlock b s = .ok t ∧
      t = { s with acc := t.acc, count := s.count + BitVec.ofNat 64 s.bw }) ∧
    (s.mixphase ≠ .blocks → mixBlock b s = .error .blockNotAccepted) ∧
    (s.mixphase = .blocks → b.length < s.bw → ∃ t, mixTail b s = .ok t ∧
      t = { s with acc := t.acc, count := s.count + BitVec.ofNat 64 b.length, mixphase := .tailTaken }) ∧
    (s.mixphase ≠ .blocks → mixTail b s = .error .tailNotAccepted) ∧
    (s.mixphase = .blocks → s.bw ≤ b.length → mixTail b s = .error .tailTooLong) ∧
    (s.mixphase ≠ .finalized → ∃ t, mixFinalize s = .ok t ∧ t = { s with acc := t.acc, mixphase := .finalized }) ∧
    (s.mixphase = .finalized → mixFinalize s = .error .finalizeNotAccepted) ∧
    (s.mixphase = .finalized → ∃ bs, mixGetBytes s = .ok bs ∧ bs.length = digestWidth s.variant) ∧
    (s.mixphase ≠ .finalized → mixGetBytes s = .error .digestNotReady)

/-- R133, R134, R135: the MUR32 mixer, constant by constant. -/
def Obligations.Mur32MixerArithmetic : Prop :=
  (∀ (s : State) (b0 b1 b2 b3 : Byte), s.variant = .mur32 → s.mixphase = .blocks →
    ∃ t, mixBlock [b0, b1, b2, b3] s = .ok t ∧ t.count = s.count + 4 ∧ t.mixphase = .blocks ∧
      mur32View t.acc =
        (mur32View s.acc ^^^ ((b3 ++ b2 ++ b1 ++ b0 : Word) * 0xcc9e2d51).rotateLeft 15 * 0x1b873593).rotateLeft 13 * 5
          + 0xe6546b64) ∧
  (∀ (s : State) (b : List Byte), s.variant = .mur32 → s.mixphase ≠ .blocks →
    mixBlock b s = .error .blockNotAccepted ∧ mixTail b s = .error .tailNotAccepted) ∧
  (∀ (s : State) (b : List Byte), s.variant = .mur32 → s.mixphase = .blocks → 4 ≤ b.length →
    mixTail b s = .error .tailTooLong) ∧
  (∀ (s : State) (b0 b1 b2 : Byte), s.variant = .mur32 → s.mixphase = .blocks →
    (∃ t, mixTail [] s = .ok t ∧ t.count = s.count ∧ t.mixphase = .tailTaken ∧ mur32View t.acc = mur32View s.acc) ∧
    (∃ t, mixTail [b0] s = .ok t ∧ t.count = s.count + 1 ∧ t.mixphase = .tailTaken ∧
      mur32View t.acc = mur32View s.acc ^^^ (b0.zeroExtend 32 * 0xcc9e2d51).rotateLeft 15 * 0x1b873593) ∧
    (∃ t, mixTail [b0, b1] s = .ok t ∧ t.count = s.count + 2 ∧ t.mixphase = .tailTaken ∧
      mur32View t.acc =
        mur32View s.acc ^^^ ((b1 ++ b0 : BitVec 16).zeroExtend 32 * 0xcc9e2d51).rotateLeft 15 * 0x1b873593) ∧
    (∃ t, mixTail [b0, b1, b2] s = .ok t ∧ t.count = s.count + 3 ∧ t.mixphase = .tailTaken ∧
      mur32View t.acc =
        mur32View s.acc ^^^ ((b2 ++ b1 ++ b0 : BitVec 24).zeroExtend 32 * 0xcc9e2d51).rotateLeft 15 * 0x1b873593)) ∧
  (∀ s : State, s.variant = .mur32 →
    (s.mixphase ≠ .finalized → ∃ t, mixFinalize s = .ok t ∧ t.mixphase = .finalized ∧
      mur32View t.acc = fmix32 (mur32View s.acc ^^^ s.count.setWidth 32)) ∧
    (s.mixphase = .finalized → mixFinalize s = .error .finalizeNotAccepted))

/-- 42_mixer128_x86.md, 70_reset_and_hazards.md section 3: the X86_128 block: the four updates in order, h4 reading the new
h1. The values of the multipliers c1 to c4 are the model's (log 7, PRESUMED): R150 takes them from general knowledge. -/
def Obligations.X86BlockSequential : Prop :=
  (∀ (s : State) (b : List Byte), s.variant = .x86 → s.mixphase = .blocks → b.length = 16 →
    ∃ t k1 k2 k3 k4, mixBlock b s = .ok t ∧ t.count = s.count + 16 ∧ t.mixphase = .blocks ∧
      bytesLe 4 (k1 : Word) ++ bytesLe 4 (k2 : Word) ++ bytesLe 4 (k3 : Word) ++ bytesLe 4 (k4 : Word) = b ∧
      (x86View t.acc).h1 = ((x86View s.acc).h1 ^^^ (k1 * 0x239b961b).rotateLeft 15 * 0xab0e9789).rotateLeft 19 * 5
        + (x86View s.acc).h2 * 5 + 0x561ccd1b ∧
      (x86View t.acc).h2 = ((x86View s.acc).h2 ^^^ (k2 * 0xab0e9789).rotateLeft 16 * 0x38b34ae5).rotateLeft 17 * 5
        + (x86View s.acc).h3 * 5 + 0x0bcaa747 ∧
      (x86View t.acc).h3 = ((x86View s.acc).h3 ^^^ (k3 * 0x38b34ae5).rotateLeft 17 * 0xa1e38b93).rotateLeft 15 * 5
        + (x86View s.acc).h4 * 5 + 0x96cd1c35 ∧
      (x86View t.acc).h4 = ((x86View s.acc).h4 ^^^ (k4 * 0xa1e38b93).rotateLeft 18 * 0x239b961b).rotateLeft 13 * 5
        + (x86View t.acc).h1 * 5 + 0x32ac3b17) ∧
  (∀ (s : State) (b : List Byte), s.variant = .x86 → s.mixphase ≠ .blocks → mixBlock b s = .error .blockNotAccepted)

/-- R172, 70_reset_and_hazards.md section 3: the X64_128 block: h1, then h2 reading the new h1. -/
def Obligations.X64BlockSequential : Prop :=
  (∀ (s : State) (b : List Byte), s.variant = .x64 → s.mixphase = .blocks → b.length = 16 →
    ∃ t k1 k2, mixBlock b s = .ok t ∧ t.count = s.count + 16 ∧ t.mixphase = .blocks ∧
      bytesLe 8 (k1 : Word64) ++ bytesLe 8 (k2 : Word64) = b ∧
      (x64View t.acc).h1 =
        ((x64View s.acc).h1 ^^^ (k1 * 0x87c37b91114253d5).rotateLeft 31 * 0x4cf5ad432745937f).rotateLeft 27 * 5
          + (x64View s.acc).h2 * 5 + 0x52dce729 ∧
      (x64View t.acc).h2 =
        ((x64View s.acc).h2 ^^^ (k2 * 0x4cf5ad432745937f).rotateLeft 33 * 0x87c37b91114253d5).rotateLeft 31 * 5
          + (x64View t.acc).h1 * 5 + 0x38495ab5) ∧
  (∀ (s : State) (b : List Byte), s.variant = .x64 → s.mixphase ≠ .blocks → mixBlock b s = .error .blockNotAccepted)

/-- 42_mixer128_x86.md, 43_mixer128_x64.md: the tail groups, absent bytes zero. The form without guards is what the spec
derives: "folding an empty group would change nothing, so the guards may equally be dropped" (X86_128, in R153), "the guards
may be dropped because `shuffle_64(0, ...) = 0`, and the two folds commute" (X64_128, in R173). The values of the X86_128
multipliers are the model's (log 7, PRESUMED): R150 takes them from general knowledge. -/
def Obligations.TailFoldsEveryGroup : Prop :=
  (∀ (s : State) (b : List Byte), s.variant = .x86 → s.mixphase = .blocks → b.length < 16 →
    ∃ t, mixTail b s = .ok t ∧ t.count = s.count + BitVec.ofNat 64 b.length ∧ t.mixphase = .tailTaken ∧
      (x86View t.acc).h1 = (x86View s.acc).h1 ^^^ shuffle (le 32 (b.take 4)) 0x239b961b 0xab0e9789 15 ∧
      (x86View t.acc).h2 = (x86View s.acc).h2 ^^^ shuffle (le 32 ((b.drop 4).take 4)) 0xab0e9789 0x38b34ae5 16 ∧
      (x86View t.acc).h3 = (x86View s.acc).h3 ^^^ shuffle (le 32 ((b.drop 8).take 4)) 0x38b34ae5 0xa1e38b93 17 ∧
      (x86View t.acc).h4 = (x86View s.acc).h4 ^^^ shuffle (le 32 (b.drop 12)) 0xa1e38b93 0x239b961b 18) ∧
  (∀ (s : State) (b : List Byte), s.variant = .x64 → s.mixphase = .blocks → b.length < 16 →
    ∃ t, mixTail b s = .ok t ∧ t.count = s.count + BitVec.ofNat 64 b.length ∧ t.mixphase = .tailTaken ∧
      (x64View t.acc).h1 =
        (x64View s.acc).h1 ^^^ shuffle (le 64 (b.take 8)) 0x87c37b91114253d5 0x4cf5ad432745937f 31 ∧
      (x64View t.acc).h2 =
        (x64View s.acc).h2 ^^^ shuffle (le 64 (b.drop 8)) 0x4cf5ad432745937f 0x87c37b91114253d5 33) ∧
  (∀ (s : State) (b : List Byte), s.variant ≠ .mur32 → s.mixphase ≠ .blocks → mixTail b s = .error .tailNotAccepted) ∧
  (∀ (s : State) (b : List Byte), s.variant ≠ .mur32 → s.mixphase = .blocks → 16 ≤ b.length →
    mixTail b s = .error .tailTooLong)

/-- R154, R174: finalization of the 128-bit variants, statement by statement; X86_128 takes the count modulo `2 ^ 32`,
X64_128 all of it. -/
def Obligations.WideFinalizeArithmetic : Prop :=
  (∀ s : State, s.variant = .x86 → s.mixphase ≠ .finalized →
    ∃ (t : State) (a1 a2 a3 a4 b1 b2 b3 b4 : Word), mixFinalize s = .ok t ∧ t.mixphase = .finalized ∧
      a1 = ((x86View s.acc).h1 ^^^ s.count.setWidth 32) + a2 + a3 + a4 ∧
      a2 = (x86View s.acc).h2 ^^^ s.count.setWidth 32 ∧
      a3 = (x86View s.acc).h3 ^^^ s.count.setWidth 32 ∧
      a4 = (x86View s.acc).h4 ^^^ s.count.setWidth 32 ∧
      b1 = fmix32 a1 ∧ b2 = fmix32 (a2 + a1) ∧ b3 = fmix32 (a3 + a1) ∧ b4 = fmix32 (a4 + a1) ∧
      x86View t.acc =
        { h1 := b1 + b2 + b3 + b4
          h2 := b2 + (b1 + b2 + b3 + b4)
          h3 := b3 + (b1 + b2 + b3 + b4)
          h4 := b4 + (b1 + b2 + b3 + b4) }) ∧
  (∀ s : State, s.variant = .x64 → s.mixphase ≠ .finalized →
    ∃ (t : State) (a1 a2 b1 b2 : Word64), mixFinalize s = .ok t ∧ t.mixphase = .finalized ∧
      a1 = ((x64View s.acc).h1 ^^^ s.count) + a2 ∧ a2 = (x64View s.acc).h2 ^^^ s.count ∧
      b1 = fmix64 a1 ∧ b2 = fmix64 (a2 + a1) ∧
      x64View t.acc = { h1 := b1 + b2, h2 := b2 + (b1 + b2) }) ∧
  (∀ s : State, s.variant ≠ .mur32 → s.mixphase = .finalized → mixFinalize s = .error .finalizeNotAccepted)

/-- R230, R231, R232: the digest bytes of each variant, bit for bit, and the fault before finalization. -/
def Obligations.SerializerByteOrder : Prop :=
  ∀ s : State,
    (s.mixphase ≠ .finalized → mixGetBytes s = .error .digestNotReady) ∧
    (s.mixphase = .finalized → s.variant = .mur32 → ∃ bs, mixGetBytes s = .ok bs ∧ bs.length = 4 ∧
      ∀ i, i < 4 → bs[i]? = some (s.acc.extractLsb' (8 * i) 8)) ∧
    (s.mixphase = .finalized → s.variant = .x86 → ∃ bs, mixGetBytes s = .ok bs ∧ bs.length = 16 ∧
      ∀ i, i < 16 → bs[i]? = some (s.acc.extractLsb' (8 * i) 8)) ∧
    (s.mixphase = .finalized → s.variant = .x64 → ∃ bs, mixGetBytes s = .ok bs ∧ bs.length = 16 ∧
      ∀ i, i < 8 → bs[i]? = some (s.acc.extractLsb' (64 + 8 * i) 8) ∧ bs[8 + i]? = some (s.acc.extractLsb' (8 * i) 8))

/-- 45_digest_serializer.md section 2 (DIGEST as a function of ACC): what FINISH leaves in DIGEST. -/
def Obligations.DigestIsAFunctionOfAcc : Prop :=
  ∀ s t : State, exec .finish s = .next t → t.fault = false →
    (t.variant = .mur32 → t.digest = (t.acc.extractLsb' 0 32).zeroExtend 128) ∧
    (t.variant = .x86 → t.digest = t.acc) ∧
    (t.variant = .x64 → t.digest = t.acc.extractLsb' 0 64 ++ t.acc.extractLsb' 64 64)

/-! ### Whole hashes -/

/-- 44_block_buffer.md section 2 (core correctness property): every partition of a byte sequence into PUTs gives the digest
of feeding it in one piece. -/
def Obligations.PartitionNeverChangesDigest : Prop :=
  ∀ (s : State) (parts : List (List Byte)), WrapperInv s → s.fault = false → s.phase = .active →
    ∃ t u data,
      execAll (parts.map Instr.put ++ [.finish]) s = .next t ∧
      execAll (putn parts.flatten ++ [.finish]) s = .next u ∧
      t.digest = u.digest ∧ t.acc = u.acc ∧ t.count = u.count ∧ t.fault = false ∧ u.fault = false ∧
      t.output = s.output ++ List.replicate parts.length 0x00000300 ++ 0x00000400 :: data ∧
      u.output = s.output ++ List.replicate (putn parts.flatten).length 0x00000300 ++ 0x00000400 :: data

/-- 41_mixer32.md (the hash as one function), 42_mixer128_x86.md and 43_mixer128_x64.md (likewise), 44_block_buffer.md
section 2 (one-shot equivalence): HASH answers the reference hash of its bytes, from any state with FAULT = 0. -/
def Obligations.HashAnswersReferenceDigest : Prop :=
  ∀ (s : State) (op : SeedOperand) (S : List Byte), s.fault = false →
    ∃ t data, execAll (hashCommands op S) s = .next t ∧ t.fault = false ∧ t.phase = .finished ∧
      t.count = BitVec.ofNat 64 S.length ∧
      t.digest = digestReg (referenceHash op S) ∧
      t.output = s.output ++ 0x00000100 :: (List.replicate (putn S).length 0x00000300 ++ 0x00000400 :: data) ∧
      linkBytes data = referenceHash op S

/-- 30_encoding.md section 7 (REHASH), 70_reset_and_hazards.md section 2: after a hash, START and the bytes of another give
that one's reference hash under the seeds of the last INIT. -/
def Obligations.RehashAnswersReferenceDigest : Prop :=
  ∀ (s t : State) (op : SeedOperand) (S T : List Byte), execAll (hashCommands op S) s = .next t →
    ∃ u, execAll (rehashCommands T) t = .next u ∧ u.fault = false ∧ u.digest = digestReg (referenceHash op T)

/-- 45_digest_serializer.md section 2 (empty input): INIT with seed 0, then FINISH, answers data words that are all 0. -/
def Obligations.EmptyInputZeroDigest : Prop :=
  ∀ (s : State) (op : SeedOperand), s.fault = false → seedView op = 0 →
    ∃ t, execAll [.init op, .finish] s = .next t ∧ t.digest = 0 ∧
      t.output = s.output ++ [0x00000100, 0x00000400] ++ List.replicate (digestWidth op.variant / 4) 0

/-- 20_memory.md section 5, 60_exceptions.md section 2: instances share nothing, and one without exactly one host is refused
(the platform's shape is the model's, log 13). -/
def Obligations.InstancesDoNotInteract : Prop :=
  ∀ (p : List Attached) (k : Fin p.length),
    (p[k].hosts ≠ 1 → stepInstance p k = .refused .notOneHost) ∧
    (∀ q, stepInstance p k = .next q → q.length = p.length ∧ (∀ j, j ≠ k.val → q[j]? = p[j]?) ∧
      ∃ t, step p[k].block = .next t ∧ q[k.val]? = some { hosts := 1, block := t })
end

