-- ==== Sys2Proof/Laws/State.lean ====
section
/-! SUPPORT. What each update of State does to each field, true by definition and tagged for simp, so that no later proof
unfolds a record update. -/

namespace Sys2Proof.Machine

section respond

variable (ws : List Word) (s : State)

@[simp] theorem respond_phase : (respond ws s).phase = s.phase := rfl
@[simp] theorem respond_variant : (respond ws s).variant = s.variant := rfl
@[simp] theorem respond_seed : (respond ws s).seed = s.seed := rfl
@[simp] theorem respond_acc : (respond ws s).acc = s.acc := rfl
@[simp] theorem respond_count : (respond ws s).count = s.count := rfl
@[simp] theorem respond_buf : (respond ws s).buf = s.buf := rfl
@[simp] theorem respond_buflen : (respond ws s).buflen = s.buflen := rfl
@[simp] theorem respond_mixphase : (respond ws s).mixphase = s.mixphase := rfl
@[simp] theorem respond_digest : (respond ws s).digest = s.digest := rfl
@[simp] theorem respond_fault : (respond ws s).fault = s.fault := rfl
@[simp] theorem respond_cause : (respond ws s).cause = s.cause := rfl
@[simp] theorem respond_faultHdr : (respond ws s).faultHdr = s.faultHdr := rfl
@[simp] theorem respond_input : (respond ws s).input = s.input := rfl
@[simp] theorem respond_output : (respond ws s).output = s.output ++ ws := rfl
@[simp] theorem respond_resetLine : (respond ws s).resetLine = s.resetLine := rfl
@[simp] theorem respond_bw : (respond ws s).bw = s.bw := rfl

end respond

section setBuflen

variable (n : Nat) (s : State)

@[simp] theorem setBuflen_phase : (setBuflen n s).phase = s.phase := rfl
@[simp] theorem setBuflen_variant : (setBuflen n s).variant = s.variant := rfl
@[simp] theorem setBuflen_seed : (setBuflen n s).seed = s.seed := rfl
@[simp] theorem setBuflen_acc : (setBuflen n s).acc = s.acc := rfl
@[simp] theorem setBuflen_count : (setBuflen n s).count = s.count := rfl
@[simp] theorem setBuflen_buf : (setBuflen n s).buf = s.buf := rfl
@[simp] theorem setBuflen_buflen : (setBuflen n s).buflen = Fin.ofNat 16 n := rfl
@[simp] theorem setBuflen_mixphase : (setBuflen n s).mixphase = s.mixphase := rfl
@[simp] theorem setBuflen_digest : (setBuflen n s).digest = s.digest := rfl
@[simp] theorem setBuflen_fault : (setBuflen n s).fault = s.fault := rfl
@[simp] theorem setBuflen_cause : (setBuflen n s).cause = s.cause := rfl
@[simp] theorem setBuflen_faultHdr : (setBuflen n s).faultHdr = s.faultHdr := rfl
@[simp] theorem setBuflen_input : (setBuflen n s).input = s.input := rfl
@[simp] theorem setBuflen_output : (setBuflen n s).output = s.output := rfl
@[simp] theorem setBuflen_resetLine : (setBuflen n s).resetLine = s.resetLine := rfl
@[simp] theorem setBuflen_bw : (setBuflen n s).bw = s.bw := rfl

end setBuflen

section appendBytes

variable (bs : List Byte) (s : State)

@[simp] theorem appendBytes_phase : (appendBytes bs s).phase = s.phase := rfl
@[simp] theorem appendBytes_variant : (appendBytes bs s).variant = s.variant := rfl
@[simp] theorem appendBytes_seed : (appendBytes bs s).seed = s.seed := rfl
@[simp] theorem appendBytes_acc : (appendBytes bs s).acc = s.acc := rfl
@[simp] theorem appendBytes_count : (appendBytes bs s).count = s.count := rfl
@[simp] theorem appendBytes_buf : (appendBytes bs s).buf = bufWrite s.buflen.val bs s.buf := rfl
@[simp] theorem appendBytes_buflen : (appendBytes bs s).buflen = s.buflen := rfl
@[simp] theorem appendBytes_mixphase : (appendBytes bs s).mixphase = s.mixphase := rfl
@[simp] theorem appendBytes_digest : (appendBytes bs s).digest = s.digest := rfl
@[simp] theorem appendBytes_fault : (appendBytes bs s).fault = s.fault := rfl
@[simp] theorem appendBytes_cause : (appendBytes bs s).cause = s.cause := rfl
@[simp] theorem appendBytes_faultHdr : (appendBytes bs s).faultHdr = s.faultHdr := rfl
@[simp] theorem appendBytes_input : (appendBytes bs s).input = s.input := rfl
@[simp] theorem appendBytes_output : (appendBytes bs s).output = s.output := rfl
@[simp] theorem appendBytes_resetLine : (appendBytes bs s).resetLine = s.resetLine := rfl
@[simp] theorem appendBytes_bw : (appendBytes bs s).bw = s.bw := rfl

end appendBytes

section mixInit

variable (v : Variant) (seed : Reg128) (s : State)

@[simp] theorem mixInit_phase : (mixInit v seed s).phase = s.phase := rfl
@[simp] theorem mixInit_variant : (mixInit v seed s).variant = v := rfl
@[simp] theorem mixInit_seed : (mixInit v seed s).seed = s.seed := rfl
@[simp] theorem mixInit_acc : (mixInit v seed s).acc = seedAcc v seed := rfl
@[simp] theorem mixInit_count : (mixInit v seed s).count = 0 := rfl
@[simp] theorem mixInit_buf : (mixInit v seed s).buf = s.buf := rfl
@[simp] theorem mixInit_buflen : (mixInit v seed s).buflen = s.buflen := rfl
@[simp] theorem mixInit_mixphase : (mixInit v seed s).mixphase = .blocks := rfl
@[simp] theorem mixInit_digest : (mixInit v seed s).digest = s.digest := rfl
@[simp] theorem mixInit_fault : (mixInit v seed s).fault = s.fault := rfl
@[simp] theorem mixInit_cause : (mixInit v seed s).cause = s.cause := rfl
@[simp] theorem mixInit_faultHdr : (mixInit v seed s).faultHdr = s.faultHdr := rfl
@[simp] theorem mixInit_input : (mixInit v seed s).input = s.input := rfl
@[simp] theorem mixInit_output : (mixInit v seed s).output = s.output := rfl
@[simp] theorem mixInit_resetLine : (mixInit v seed s).resetLine = s.resetLine := rfl
@[simp] theorem mixInit_bw : (mixInit v seed s).bw = blockWidth v := rfl

end mixInit

section raiseFault

variable (c : Cause) (h : Word) (s : State)

@[simp] theorem raiseFault_phase : (raiseFault c h s).phase = s.phase := rfl
@[simp] theorem raiseFault_variant : (raiseFault c h s).variant = s.variant := rfl
@[simp] theorem raiseFault_seed : (raiseFault c h s).seed = s.seed := rfl
@[simp] theorem raiseFault_acc : (raiseFault c h s).acc = s.acc := rfl
@[simp] theorem raiseFault_count : (raiseFault c h s).count = s.count := rfl
@[simp] theorem raiseFault_buf : (raiseFault c h s).buf = s.buf := rfl
@[simp] theorem raiseFault_buflen : (raiseFault c h s).buflen = s.buflen := rfl
@[simp] theorem raiseFault_mixphase : (raiseFault c h s).mixphase = s.mixphase := rfl
@[simp] theorem raiseFault_digest : (raiseFault c h s).digest = s.digest := rfl
@[simp] theorem raiseFault_fault : (raiseFault c h s).fault = true := rfl
@[simp] theorem raiseFault_cause : (raiseFault c h s).cause = c := rfl
@[simp] theorem raiseFault_faultHdr : (raiseFault c h s).faultHdr = h := rfl
@[simp] theorem raiseFault_input : (raiseFault c h s).input = s.input := rfl
@[simp] theorem raiseFault_output : (raiseFault c h s).output = s.output ++ [statusWord true c (hdrOp h)] := rfl
@[simp] theorem raiseFault_resetLine : (raiseFault c h s).resetLine = s.resetLine := rfl
@[simp] theorem raiseFault_bw : (raiseFault c h s).bw = s.bw := rfl

end raiseFault

section beginHash

variable (v : Variant) (s : State)

@[simp] theorem beginHash_phase : (beginHash v s).phase = .active := rfl
@[simp] theorem beginHash_variant : (beginHash v s).variant = v := rfl
@[simp] theorem beginHash_seed : (beginHash v s).seed = s.seed := rfl
@[simp] theorem beginHash_acc : (beginHash v s).acc = seedAcc v s.seed := rfl
@[simp] theorem beginHash_count : (beginHash v s).count = 0 := rfl
@[simp] theorem beginHash_buf : (beginHash v s).buf = s.buf := rfl
@[simp] theorem beginHash_buflen : (beginHash v s).buflen = 0 := rfl
@[simp] theorem beginHash_mixphase : (beginHash v s).mixphase = .blocks := rfl
@[simp] theorem beginHash_digest : (beginHash v s).digest = 0 := rfl
@[simp] theorem beginHash_fault : (beginHash v s).fault = s.fault := rfl
@[simp] theorem beginHash_cause : (beginHash v s).cause = s.cause := rfl
@[simp] theorem beginHash_faultHdr : (beginHash v s).faultHdr = s.faultHdr := rfl
@[simp] theorem beginHash_input : (beginHash v s).input = s.input := rfl
@[simp] theorem beginHash_output : (beginHash v s).output = s.output := rfl
@[simp] theorem beginHash_resetLine : (beginHash v s).resetLine = s.resetLine := rfl
@[simp] theorem beginHash_bw : (beginHash v s).bw = blockWidth v := rfl

end beginHash

end Sys2Proof.Machine
end

