-- ==== Sys2Proof/Laws/Buffer.lean ====
section
/-! SUPPORT. The byte buffer (10_state.md R26, R27): what a write leaves to be read. -/

namespace Sys2Proof.Machine

/-- A write of bytes that fit, as a list. -/
theorem bufWrite_toList (bs : List Byte) (i : Nat) (buf : Vector Byte 16) (h : i + bs.length ≤ 16) :
    (bufWrite i bs buf).toList = buf.toList.take i ++ bs ++ buf.toList.drop (i + bs.length) := by
  induction bs generalizing i buf with
  | nil => simp [bufWrite]
  | cons b bs ih =>
    simp only [List.length_cons] at h
    have hlen : buf.toList.length = 16 := by simp
    rw [bufWrite, ih (i + 1) _ (by omega)]
    rw [Vector.toList_setIfInBounds, List.take_set, List.drop_set_of_lt (by omega)]
    have hi : i < buf.toList.length := by omega
    rw [show i + 1 + bs.length = i + (b :: bs).length by simp only [List.length_cons]; omega]
    rw [List.take_succ_eq_append_getElem hi, List.set_append_right _ _ (by simp)]
    have hmin : i - min i 16 = 0 := by omega
    simp [hmin]

/-- Reading up to the end of a write gives what stood before it, then the bytes written. -/
theorem bufRead_bufWrite (bs : List Byte) (i : Nat) (buf : Vector Byte 16) (h : i + bs.length ≤ 16) :
    bufRead (i + bs.length) (bufWrite i bs buf) = bufRead i buf ++ bs := by
  rw [bufRead, bufWrite_toList bs i buf h, bufRead]
  rw [List.take_append_of_le_length (by simp; omega), List.take_of_length_le (by simp)]

@[simp] theorem bufWrite_nil (i : Nat) (buf : Vector Byte 16) : bufWrite i [] buf = buf := rfl

@[simp] theorem bufRead_length (n : Nat) (buf : Vector Byte 16) (h : n ≤ 16) : (bufRead n buf).length = n := by
  simp [bufRead, h]

@[simp] theorem bufRead_zero (buf : Vector Byte 16) : bufRead 0 buf = [] := by simp [bufRead]

@[simp] theorem buffered_length (s : State) : s.buffered.length = s.buflen.val :=
  bufRead_length _ _ (Nat.le_of_lt s.buflen.isLt)

theorem buffered_setBuflen_zero (s : State) : (setBuflen 0 s).buffered = [] := by
  simp [State.buffered]

/-- Writing a fill length a 4-bit register holds. -/
theorem setBuflen_val (n : Nat) (s : State) (h : n < 16) : (setBuflen n s).buflen.val = n := by
  simp only [setBuflen_buflen, Fin.val_ofNat]
  omega

/-- Appending bytes that fit and counting them. -/
theorem buffered_append (d : List Byte) (s : State) (h : s.buflen.val + d.length < 16) :
    (setBuflen (s.buflen.val + d.length) (appendBytes d s)).buffered = s.buffered ++ d := by
  rw [State.buffered, setBuflen_val _ _ h, setBuflen_buf, appendBytes_buf]
  exact bufRead_bufWrite d _ _ (Nat.le_of_lt h)

end Sys2Proof.Machine
end

