-- ==== Sys2Proof/Laws/Bytes.lean ====
section
/-! SUPPORT. Byte order: a little-endian value determines its bytes and is determined by them (R10, R53), the two halves
of a 64-bit value, the packing of PUT's bytes (R79), words on a byte-serial link (D22). -/

namespace Sys2Proof

theorem leNat_lt (s : List Byte) : leNat s < 256 ^ s.length := by
  induction s with
  | nil => simp [leNat]
  | cons b bs ih =>
    have hb : b.toNat < 256 := b.isLt
    simp only [leNat, List.length_cons, Nat.pow_succ]
    omega

@[simp] theorem bytesLe_length {w : Nat} (n : Nat) (v : BitVec w) : (bytesLe n v).length = n := by
  simp [bytesLe]

theorem bytesLe_getElem {w n : Nat} (v : BitVec w) (i : Nat) (h : i < (bytesLe n v).length) :
    (bytesLe n v)[i] = v.extractLsb' (8 * i) 8 := by
  simp [bytesLe]

/-- The bytes of a value, lowest first: the first, then the bytes of the rest. -/
theorem bytesLe_succ {w : Nat} (n : Nat) (v : BitVec w) :
    bytesLe (n + 1) v = v.extractLsb' 0 8 :: bytesLe n (v >>> 8) := by
  simp only [bytesLe, List.range_succ_eq_map, List.map_cons, List.map_map, Nat.mul_zero, List.cons.injEq, true_and]
  apply List.map_congr_left
  intro i _
  ext j hj
  simp only [Function.comp_apply, Nat.succ_eq_add_one, BitVec.getElem_extractLsb', BitVec.getLsbD_ushiftRight]
  congr 1
  omega

theorem leNat_bytesLe {w : Nat} (n : Nat) (v : BitVec w) : leNat (bytesLe n v) = v.toNat % 256 ^ n := by
  induction n generalizing v with
  | zero => simp [bytesLe, leNat, Nat.mod_one]
  | succ n ih =>
    have e1 : (v.extractLsb' 0 8).toNat = v.toNat % 256 := by simp
    have e2 : (v >>> 8).toNat = v.toNat / 256 := by simp [Nat.shiftRight_eq_div_pow]
    rw [bytesLe_succ, leNat, ih, e1, e2, Nat.pow_succ, Nat.mul_comm (256 ^ n) 256, Nat.mod_mul]

/-- The value of a value's bytes is the value. -/
theorem le_bytesLe {w n : Nat} (v : BitVec w) (h : w ≤ 8 * n) : le w (bytesLe n v) = v := by
  apply BitVec.eq_of_toNat_eq
  have hp : (256 : Nat) ^ n = 2 ^ (8 * n) := by rw [Nat.pow_mul]
  have hv : v.toNat < 256 ^ n := hp ▸ Nat.lt_of_lt_of_le v.isLt (Nat.pow_le_pow_right (by decide) h)
  rw [le, leNat_bytesLe, Nat.mod_eq_of_lt hv, BitVec.toNat_ofNat, Nat.mod_eq_of_lt v.isLt]

/-- The bytes of a value whose bytes they are. -/
theorem bytesLe_le (s : List Byte) (w : Nat) (h : 8 * s.length ≤ w) : bytesLe s.length (le w s) = s := by
  have hp (s : List Byte) : (256 : Nat) ^ s.length = 2 ^ (8 * s.length) := by rw [Nat.pow_mul]
  induction s with
  | nil => rfl
  | cons b bs ih =>
    simp only [List.length_cons] at h
    have hlt := leNat_lt (b :: bs)
    rw [hp] at hlt
    have hle : leNat (b :: bs) < 2 ^ w :=
      Nat.lt_of_lt_of_le hlt (Nat.pow_le_pow_right (by decide) (by simpa using h))
    rw [List.length_cons, bytesLe_succ]
    congr 1
    · apply BitVec.eq_of_toNat_eq
      have hb : b.toNat < 256 := b.isLt
      simp only [le, BitVec.extractLsb'_toNat, BitVec.toNat_ofNat, Nat.mod_eq_of_lt hle]
      simp only [leNat, Nat.shiftRight_zero]
      omega
    · have : le w (b :: bs) >>> 8 = le w bs := by
        apply BitVec.eq_of_toNat_eq
        have hb : b.toNat < 256 := b.isLt
        have hbs : leNat bs < 2 ^ w := by simp only [leNat] at hle; omega
        simp only [le, BitVec.toNat_ushiftRight, BitVec.toNat_ofNat, Nat.mod_eq_of_lt hle, Nat.mod_eq_of_lt hbs,
          Nat.shiftRight_eq_div_pow]
        simp only [leNat]
        omega
      rw [this]
      exact ih (by omega)

/-- The low part of a concatenation. -/
theorem extract_append_low {m n : Nat} (x : BitVec m) (y : BitVec n) : (x ++ y).extractLsb' 0 n = y := by
  ext i hi
  simp [BitVec.getLsbD_append, hi]

/-- The high part of a concatenation. -/
theorem extract_append_high {m n : Nat} (x : BitVec m) (y : BitVec n) : (x ++ y).extractLsb' n m = x := by
  ext i hi
  simp [BitVec.getLsbD_append, BitVec.getLsbD_eq_getElem hi]

/-- A part of a concatenation above its low part. -/
theorem extract_append_above {m n : Nat} (x : BitVec m) (y : BitVec n) (i k : Nat) :
    (x ++ y).extractLsb' (n + i) k = x.extractLsb' i k := by
  ext j hj
  simp only [BitVec.getElem_extractLsb', BitVec.getLsbD_append]
  rw [if_neg (by omega)]
  congr 1
  omega

/-- A part of a concatenation inside its low part. -/
theorem extract_append_below {m n : Nat} (x : BitVec m) (y : BitVec n) (i k : Nat) (h : i + k ≤ n) :
    (x ++ y).extractLsb' i k = y.extractLsb' i k := by
  ext j hj
  simp only [BitVec.getElem_extractLsb', BitVec.getLsbD_append]
  rw [if_pos (by omega)]

/-- A value cut in two and put together again. -/
theorem append_extract {m n : Nat} (v : BitVec (m + n)) : v.extractLsb' n m ++ v.extractLsb' 0 n = v := by
  ext i hi
  simp only [BitVec.getElem_append, BitVec.getElem_extractLsb']
  split
  · simp [BitVec.getLsbD_eq_getElem hi]
  · rw [show n + (i - n) = i by omega, BitVec.getLsbD_eq_getElem hi]

@[simp] theorem joinWords_low_high (v : Word64) : joinWords (lowWord v) (highWord v) = v :=
  append_extract (m := 32) (n := 32) v

@[simp] theorem lowWord_join (p0 p1 : Word) : lowWord (joinWords p0 p1) = p0 := extract_append_low p1 p0

@[simp] theorem highWord_join (p0 p1 : Word) : highWord (joinWords p0 p1) = p1 := extract_append_high p1 p0

@[simp] theorem linkBytes_nil : linkBytes [] = [] := rfl

@[simp] theorem linkBytes_cons (w : Word) (ws : List Word) : linkBytes (w :: ws) = bytesLe 4 w ++ linkBytes ws := by
  simp [linkBytes]

@[simp] theorem linkBytes_length (ws : List Word) : (linkBytes ws).length = 4 * ws.length := by
  induction ws with
  | nil => rfl
  | cons w ws ih => simp [ih]; omega

/-- A byte-serial link loses nothing (D22). -/
theorem linkWords_linkBytes (ws : List Word) : linkWords (linkBytes ws) = ws := by
  induction ws with
  | nil => rfl
  | cons w ws ih =>
    have h := le_bytesLe (n := 4) w (by decide)
    match hb : bytesLe 4 w, bytesLe_length 4 w with
    | [a, b, c, d], _ =>
      rw [hb] at h
      rw [linkBytes_cons, hb]
      simp only [List.cons_append, List.nil_append, linkWords, ih, h]

theorem packBytes_length (d : List Byte) : (packBytes d).length = (d.length + 3) / 4 := by
  induction d using packBytes.induct with
  | case1 a b c d rest ih => simp only [packBytes, List.length_cons, ih]; omega
  | case2 => rfl
  | case3 short h1 h2 =>
    match short with
    | [] => exact absurd rfl h2
    | [_] => simp [packBytes]
    | [_, _] => simp [packBytes]
    | [_, _, _] => simp [packBytes]
    | a :: b :: c :: d :: r => exact absurd rfl (h1 a b c d r)

/-- The packed words begin with the bytes packed. -/
theorem linkBytes_packBytes_take (d : List Byte) : (linkBytes (packBytes d)).take d.length = d := by
  induction d using packBytes.induct with
  | case1 a b c d rest ih =>
    have h : bytesLe 4 (le 32 [a, b, c, d]) = [a, b, c, d] := bytesLe_le [a, b, c, d] 32 (by simp)
    simp only [packBytes, linkBytes_cons, h, List.length_cons]
    simpa using ih
  | case2 => rfl
  | case3 short h1 h2 =>
    have key (s : List Byte) (hs : s.length ≤ 4) : (linkBytes [le 32 s]).take s.length = s := by
      simp only [linkBytes_cons, linkBytes_nil, List.append_nil]
      have : (bytesLe 4 (le 32 s)).take s.length = bytesLe s.length (le 32 s) := by
        simp only [bytesLe, ← List.map_take, List.take_range]
        rw [Nat.min_eq_left hs]
      rw [this]
      exact bytesLe_le s 32 (by omega)
    match short with
    | [] => exact absurd rfl h2
    | [_] => exact key _ (by simp)
    | [_, _] => exact key _ (by simp)
    | [_, _, _] => exact key _ (by simp)
    | a :: b :: c :: d :: r => exact absurd rfl (h1 a b c d r)

/-- Unpacking gives back the bytes packed (R79). -/
theorem unpackBytes_packBytes (d : List Byte) : unpackBytes d.length (packBytes d) = d :=
  linkBytes_packBytes_take d

theorem unpackBytes_length (len : Nat) (p : List Word) (h : len ≤ 4 * p.length) :
    (unpackBytes len p).length = len := by
  simp [unpackBytes, h]

end Sys2Proof
end

