-- ==== Sys2Proof/Laws/Ops.lean ====
section
/-! SUPPORT. Everything the shared operations can do: performing a command (`perform`), dispatching it (`exec`), the status
word as a number (30_encoding.md R81). -/

namespace Sys2Proof.Machine

section perform
variable {h : Word} {body : State → Body} {s t : State}

/-- While FAULT = 1 no command is performed (R255). -/
theorem perform_stopped (hf : s.fault = true) : perform h body s = .fault .stopped := by simp [perform, hf]

/-- A body that ends in a state: the command answers a status word with F = 0 and its data words. -/
theorem perform_ok (hf : s.fault = false) {ws : List Word} (hb : body s = .ok (t, ws)) :
    perform h body s = .next (respond (statusWord false .none (hdrOp h) :: ws) t) := by
  simp [perform, hf, hb]

/-- A body that raises a cause: the fault entry, from the state before the command (R253). -/
theorem perform_error (hf : s.fault = false) {c : Cause} (hb : body s = .error c) :
    perform h body s = .next (raiseFault c h s) := by
  simp [perform, hf, hb]

/-- Everything a performed command can do. -/
theorem perform_next (hp : perform h body s = .next t) :
    s.fault = false ∧ ((∃ c, body s = .error c ∧ t = raiseFault c h s) ∨
      ∃ s' ws, body s = .ok (s', ws) ∧ t = respond (statusWord false .none (hdrOp h) :: ws) s') := by
  cases hf : s.fault with
  | true => simp [perform_stopped hf] at hp
  | false =>
    refine ⟨rfl, ?_⟩
    cases hb : body s with
    | error c =>
      rw [perform_error hf hb] at hp
      exact .inl ⟨c, rfl, by simpa using hp.symm⟩
    | ok r =>
      obtain ⟨s', ws⟩ := r
      rw [perform_ok hf hb] at hp
      exact .inr ⟨s', ws, rfl, by simpa using hp.symm⟩

/-- A command is performed to a next state exactly when FAULT = 0; nothing else stops it. -/
theorem perform_total (hf : s.fault = false) : ∃ t, perform h body s = .next t := by
  cases hb : body s with
  | error c => exact ⟨_, perform_error hf hb⟩
  | ok r => exact ⟨_, perform_ok hf hb⟩

end perform

/-- The status word as a number (R81). -/
theorem statusWord_toNat (f : Bool) (c : Cause) (opx : BitVec 4) :
    (statusWord f c opx).toNat = f.toNat + 16 * c.code.toNat + 256 * opx.toNat := by
  have hb : (BitVec.ofBool f).toNat = f.toNat := by cases f <;> rfl
  have happ {m n : Nat} (x : BitVec m) (y : BitVec n) : (x ++ y).toNat = x.toNat * 2 ^ n + y.toNat := by
    rw [BitVec.toNat_append, Nat.shiftLeft_eq, Nat.mul_comm, Nat.two_pow_add_eq_or_of_lt y.isLt]
  simp only [statusWord, happ, hb, BitVec.toNat_ofNat]
  omega

/-- The body of each command. -/
def bodyOf : Instr → State → Body
  | .init op => initBody op
  | .start => startBody
  | .put data => putBody data
  | .finish => finishBody
  | .fmix32 p0 => fmix32Body p0
  | .fmix64 p0 p1 => fmix64Body p0 p1

/-- Every command is its body, performed. -/
theorem exec_eq_perform (i : Instr) (s : State) : exec i s = perform i.header (bodyOf i) s := by
  cases i <;> rfl

end Sys2Proof.Machine
end

