-- ==== Sys2Proof/Laws/Decode.lean ====
section
/-! SUPPORT. The header's fields as numbers (30_encoding.md R71), the encoder's header and payload read back, and the
framing of a command (R77). -/

namespace Sys2Proof

theorem toNat_append_add {m n : Nat} (x : BitVec m) (y : BitVec n) : (x ++ y).toNat = x.toNat * 2 ^ n + y.toNat := by
  rw [BitVec.toNat_append, Nat.shiftLeft_eq, Nat.mul_comm, Nat.two_pow_add_eq_or_of_lt y.isLt]

/-! ### Fields -/

theorem hdrOp_toNat (h : Word) : (hdrOp h).toNat = h.toNat % 16 := by simp [hdrOp]
theorem hdrVar_toNat (h : Word) : (hdrVar h).toNat = h.toNat / 16 % 4 := by simp [hdrVar, Nat.shiftRight_eq_div_pow]
theorem hdrSm_toNat (h : Word) : (hdrSm h).toNat = h.toNat / 64 % 2 := by simp [hdrSm, Nat.shiftRight_eq_div_pow]
theorem hdrBit7_toNat (h : Word) : (hdrBit7 h).toNat = h.toNat / 128 % 2 := by
  simp [hdrBit7, Nat.shiftRight_eq_div_pow]
theorem hdrLen_toNat (h : Word) : (hdrLen h).toNat = h.toNat / 256 % 256 := by
  simp [hdrLen, Nat.shiftRight_eq_div_pow]
theorem hdrHigh_toNat (h : Word) : (hdrHigh h).toNat = h.toNat / 65536 := by
  have := h.isLt
  simp only [hdrHigh, BitVec.extractLsb'_toNat, Nat.shiftRight_eq_div_pow]
  omega

/-- A header word as a number (R71). -/
theorem headerWord_toNat (op : BitVec 4) (var : BitVec 2) (sm : BitVec 1) (len : BitVec 8) :
    (headerWord op var sm len).toNat = op.toNat + 16 * var.toNat + 64 * sm.toNat + 256 * len.toNat := by
  simp only [headerWord, toNat_append_add, BitVec.toNat_ofNat]
  omega

section Fields
variable (op : BitVec 4) (var : BitVec 2) (sm : BitVec 1) (len : BitVec 8)

@[simp] theorem hdrOp_headerWord : hdrOp (headerWord op var sm len) = op := by
  apply BitVec.eq_of_toNat_eq
  have := op.isLt
  rw [hdrOp_toNat, headerWord_toNat]
  omega

@[simp] theorem hdrVar_headerWord : hdrVar (headerWord op var sm len) = var := by
  apply BitVec.eq_of_toNat_eq
  have := op.isLt
  have := var.isLt
  rw [hdrVar_toNat, headerWord_toNat]
  omega

@[simp] theorem hdrSm_headerWord : hdrSm (headerWord op var sm len) = sm := by
  apply BitVec.eq_of_toNat_eq
  have := op.isLt
  have := var.isLt
  have := sm.isLt
  rw [hdrSm_toNat, headerWord_toNat]
  omega

@[simp] theorem hdrBit7_headerWord : hdrBit7 (headerWord op var sm len) = 0 := by
  apply BitVec.eq_of_toNat_eq
  have := op.isLt
  have := var.isLt
  have := sm.isLt
  rw [hdrBit7_toNat, headerWord_toNat]
  simp only [BitVec.ofNat_eq_ofNat, BitVec.toNat_ofNat]
  omega

@[simp] theorem hdrLen_headerWord : hdrLen (headerWord op var sm len) = len := by
  apply BitVec.eq_of_toNat_eq
  have := op.isLt
  have := var.isLt
  have := sm.isLt
  have := len.isLt
  rw [hdrLen_toNat, headerWord_toNat]
  omega

@[simp] theorem hdrHigh_headerWord : hdrHigh (headerWord op var sm len) = 0 := by
  apply BitVec.eq_of_toNat_eq
  have := op.isLt
  have := var.isLt
  have := sm.isLt
  have := len.isLt
  rw [hdrHigh_toNat, headerWord_toNat]
  simp only [BitVec.ofNat_eq_ofNat, BitVec.toNat_ofNat]
  omega

end Fields

@[simp] theorem varOf_code (v : Variant) : varOf v.code = some v := by cases v <;> rfl
@[simp] theorem smOf_code (sm : SeedMode) : smOf sm.code = sm := by cases sm <;> rfl

/-! ### Commands -/

/-- A command's header passes the checks of R85, and says the command and its fields. -/
theorem decodeHeader_init (op : SeedOperand) :
    decodeHeader (Instr.header (.init op)) = .ok (.init op.variant op.mode) := by
  simp [decodeHeader, Instr.header]

theorem decodeHeader_put (data : List Byte) (h : data.length ≤ maxPutLen) :
    decodeHeader (Instr.header (.put data)) = .ok (.put data.length) := by
  simp only [maxPutLen] at h
  simp [decodeHeader, Instr.header]
  omega

/-- INIT's payload words carry its operand (R78). -/
theorem readSeed_payload (op : SeedOperand) : readSeed op.variant op.mode op.payload = op := by
  cases op <;> simp [readSeed, SeedOperand.variant, SeedOperand.mode, SeedOperand.payload, payloadWord]

theorem put_wf_length {data : List Byte} (h : (Instr.put data).wf = true) : data.length ≤ 255 := of_decide_eq_true h

/-- `P(H)` of a command's header is its payload's length (R77). -/
theorem payloadLen_header (i : Instr) (h : i.wf = true) : payloadLen i.header = i.payload.length := by
  cases i with
  | init op =>
    simp only [payloadLen, Instr.header, Instr.payload, hdrOp_headerWord, hdrVar_headerWord, hdrSm_headerWord,
      varOf_code, smOf_code]
    cases op with
    | mur32 sm s => cases sm <;> rfl
    | _ => rfl
  | put data =>
    have hd := put_wf_length h
    simp only [payloadLen, Instr.header, Instr.payload, hdrOp_headerWord, hdrLen_headerWord, packBytes_length]
    simp only [BitVec.ofNat_eq_ofNat, BitVec.toNat_ofNat, Nat.reducePow, Nat.reduceMod]
    omega
  | _ => simp [payloadLen, Instr.header, Instr.payload]

/-- Decoding a header and exactly the payload words it frames, with more words behind them. -/
theorem decode_frame (h : Word) (p rest : List Word) (hp : p.length = payloadLen h) :
    decode (h :: (p ++ rest)) =
      match decodeHeader h with
      | .error r => .reject r h rest
      | .ok f => .instr (readOperands f p) rest := by
  have h1 : ¬(p ++ rest).length < payloadLen h := by simp [← hp]
  have h2 : (p ++ rest).take (payloadLen h) = p := by simp [← hp]
  have h3 : (p ++ rest).drop (payloadLen h) = rest := by simp [← hp]
  cases hd : decodeHeader h <;> simp only [decode, if_neg h1, h2, h3, hd]

/-- Every word stream is empty, or a header with too few words, or a header, its frame and a rest. -/
theorem stream_cases (ws : List Word) :
    ws = [] ∨ (∃ h p, ws = h :: p ∧ p.length < payloadLen h) ∨
      ∃ h p rest, ws = h :: (p ++ rest) ∧ p.length = payloadLen h := by
  match ws with
  | [] => exact .inl rfl
  | h :: ps =>
    by_cases hs : ps.length < payloadLen h
    · exact .inr (.inl ⟨h, ps, rfl, hs⟩)
    · refine .inr (.inr ⟨h, ps.take (payloadLen h), ps.drop (payloadLen h), ?_, ?_⟩)
      · rw [List.take_append_drop]
      · rw [List.length_take]; omega

/-- A legal header and at least the words it frames: the command (R70, R85). -/
theorem decode_ok {h : Word} {ws : List Word} {f : CommandForm} (hp : payloadLen h ≤ ws.length)
    (hd : decodeHeader h = .ok f) :
    decode (h :: ws) = .instr (readOperands f (ws.take (payloadLen h))) (ws.drop (payloadLen h)) := by
  simp [decode, Nat.not_lt.mpr hp, hd]

/-- A header that spells no command and at least the words it frames: the rejection (R77, R84). -/
theorem decode_reject {h : Word} {ws : List Word} {r : Reject} (hp : payloadLen h ≤ ws.length)
    (hd : decodeHeader h = .error r) : decode (h :: ws) = .reject r h (ws.drop (payloadLen h)) := by
  simp [decode, Nat.not_lt.mpr hp, hd]

/-- What stood on a stream that decodes to a command. -/
theorem decode_instr_inv {ws rest : List Word} {i : Instr} (hd : decode ws = .instr i rest) :
    ∃ h p f, ws = h :: p ∧ payloadLen h ≤ p.length ∧ rest = p.drop (payloadLen h) ∧ decodeHeader h = .ok f ∧
      i = readOperands f (p.take (payloadLen h)) := by
  match ws with
  | [] => cases hd
  | h :: p =>
    by_cases hp : p.length < payloadLen h
    · simp [decode, hp] at hd
    · have hp := Nat.le_of_not_lt hp
      cases hh : decodeHeader h with
      | error r => rw [decode_reject hp hh] at hd; cases hd
      | ok f => rw [decode_ok hp hh] at hd; cases hd; exact ⟨h, p, f, rfl, hp, rfl, hh, rfl⟩

/-- What stood on a stream that decodes to a rejection. -/
theorem decode_reject_inv {ws rest : List Word} {r : Reject} {h : Word} (hd : decode ws = .reject r h rest) :
    ∃ p, ws = h :: p ∧ payloadLen h ≤ p.length ∧ rest = p.drop (payloadLen h) ∧ decodeHeader h = .error r := by
  match ws with
  | [] => cases hd
  | h' :: p =>
    by_cases hp : p.length < payloadLen h'
    · simp [decode, hp] at hd
    · have hp := Nat.le_of_not_lt hp
      cases hh : decodeHeader h' with
      | error r => rw [decode_reject hp hh] at hd; cases hd; exact ⟨p, rfl, hp, rfl, hh⟩
      | ok f => rw [decode_ok hp hh] at hd; cases hd

end Sys2Proof
end

