-- ==== Sys2Proof/Laws/Mixer.lean ====
section
/-! SUPPORT. The mixer operations (41_mixer32.md R130) said once: when each answers a state, and which; the views of ACC
(10_state.md R24). -/

namespace Sys2Proof.Machine

/-! ### Block widths -/

theorem blockWidth_pos (v : Variant) : 0 < blockWidth v := by cases v <;> decide
theorem blockWidth_le (v : Variant) : blockWidth v ≤ 16 := by cases v <;> decide
theorem blockWidth_dvd (v : Variant) : blockWidth v ∣ 2 ^ 64 := by cases v <;> decide

/-! ### Operations -/

section operations
variable {s t : State} {b : List Byte} {c : Cause}

theorem mixBlock_ok (h : s.mixphase = .blocks) (b : List Byte) :
    mixBlock b s = .ok { s with acc := blockAcc s.variant b s.acc, count := s.count + BitVec.ofNat 64 s.bw } := by
  simp [mixBlock, h]

theorem mixBlock_error (h : s.mixphase ≠ .blocks) (b : List Byte) : mixBlock b s = .error .blockNotAccepted := by
  cases hm : s.mixphase <;> simp_all [mixBlock]

/-- Everything MIX_BLOCK can do. -/
theorem mixBlock_cases (b : List Byte) (s : State) :
    (s.mixphase = .blocks ∧
      mixBlock b s = .ok { s with acc := blockAcc s.variant b s.acc, count := s.count + BitVec.ofNat 64 s.bw }) ∨
    (s.mixphase ≠ .blocks ∧ mixBlock b s = .error .blockNotAccepted) := by
  by_cases h : s.mixphase = .blocks
  · exact .inl ⟨h, mixBlock_ok h b⟩
  · exact .inr ⟨h, mixBlock_error h b⟩

theorem mixTail_ok (h : s.mixphase = .blocks) (hl : b.length < s.bw) :
    mixTail b s = .ok { s with
      acc := tailAcc s.variant b s.acc
      count := s.count + BitVec.ofNat 64 b.length
      mixphase := .tailTaken } := by
  simp [mixTail, h, hl]

/-- Everything MIX_TAIL can do. -/
theorem mixTail_cases (b : List Byte) (s : State) :
    (s.mixphase = .blocks ∧ b.length < s.bw ∧
      mixTail b s = .ok { s with
        acc := tailAcc s.variant b s.acc
        count := s.count + BitVec.ofNat 64 b.length
        mixphase := .tailTaken }) ∨
    (s.mixphase = .blocks ∧ s.bw ≤ b.length ∧ mixTail b s = .error .tailTooLong) ∨
    (s.mixphase ≠ .blocks ∧ mixTail b s = .error .tailNotAccepted) := by
  cases h : s.mixphase with
  | blocks =>
    by_cases hl : b.length < s.bw
    · exact .inl ⟨rfl, hl, mixTail_ok h hl⟩
    · exact .inr (.inl ⟨rfl, Nat.le_of_not_lt hl, by simp [mixTail, h, hl]⟩)
  | tailTaken => exact .inr (.inr ⟨by simp, by simp [mixTail, h]⟩)
  | finalized => exact .inr (.inr ⟨by simp, by simp [mixTail, h]⟩)

theorem mixFinalize_ok (h : s.mixphase ≠ .finalized) :
    mixFinalize s = .ok { s with acc := finalAcc s.variant s.count s.acc, mixphase := .finalized } := by
  cases hm : s.mixphase <;> simp_all [mixFinalize]

/-- Everything MIX_FINALIZE can do. -/
theorem mixFinalize_cases (s : State) :
    (s.mixphase ≠ .finalized ∧
      mixFinalize s = .ok { s with acc := finalAcc s.variant s.count s.acc, mixphase := .finalized }) ∨
    (s.mixphase = .finalized ∧ mixFinalize s = .error .finalizeNotAccepted) := by
  by_cases h : s.mixphase = .finalized
  · exact .inr ⟨h, by simp [mixFinalize, h]⟩
  · exact .inl ⟨h, mixFinalize_ok h⟩

/-- Everything MIX_GETBYTES can do. -/
theorem mixGetBytes_cases (s : State) :
    (s.mixphase = .finalized ∧ mixGetBytes s = .ok (digestBytes s.variant s.acc)) ∨
    (s.mixphase ≠ .finalized ∧ mixGetBytes s = .error .digestNotReady) := by
  cases h : s.mixphase <;> simp [mixGetBytes, h]

end operations

/-! ### Views -/

section views
variable (acc : Reg128)

@[simp] theorem mur32View_write (h1 : Word) : mur32View (mur32Write acc h1) = h1 :=
  extract_append_low (m := 96) (n := 32) _ _

/-- Writing h1 leaves `ACC[127:32]` (R24). -/
@[simp] theorem mur32Write_high (h1 : Word) : (mur32Write acc h1).extractLsb' 32 96 = acc.extractLsb' 32 96 :=
  extract_append_high (m := 96) (n := 32) _ _

@[simp] theorem mur32Write_write (h1 h1' : Word) : mur32Write (mur32Write acc h1) h1' = mur32Write acc h1' := by
  rw [mur32Write, mur32Write_high, mur32Write]

@[simp] theorem x86View_pack (l : X86Lanes) : x86View (x86Pack l) = l := by
  obtain ⟨h1, h2, h3, h4⟩ := l
  simp only [x86View, x86Pack, X86Lanes.mk.injEq]
  refine ⟨?_, ?_, ?_, ?_⟩
  · exact extract_append_low (m := 96) (n := 32) _ _
  · exact (extract_append_above (m := 96) (n := 32) _ _ 0 32).trans (extract_append_low (m := 64) (n := 32) _ _)
  · exact ((extract_append_above (m := 96) (n := 32) _ _ 32 32).trans
      (extract_append_above (m := 64) (n := 32) _ _ 0 32)).trans (extract_append_low (m := 32) (n := 32) _ _)
  · exact ((extract_append_above (m := 96) (n := 32) _ _ 64 32).trans
      (extract_append_above (m := 64) (n := 32) _ _ 32 32)).trans (extract_append_high (m := 32) (n := 32) _ _)

@[simp] theorem x64View_pack (l : X64Lanes) : x64View (x64Pack l) = l := by
  obtain ⟨h1, h2⟩ := l
  simp only [x64View, x64Pack, X64Lanes.mk.injEq]
  exact ⟨extract_append_low (m := 64) (n := 64) _ _, extract_append_high (m := 64) (n := 64) _ _⟩

/-- The four views cover ACC. -/
@[simp] theorem x86Pack_view : x86Pack (x86View acc) = acc := by
  apply BitVec.eq_of_toNat_eq
  have h := acc.isLt
  simp only [x86View, x86Pack]
  have e (x : BitVec 32) (y z u : BitVec 32) :
      (x ++ y ++ z ++ u : BitVec 128).toNat =
        ((x.toNat * 2 ^ 32 + y.toNat) * 2 ^ 32 + z.toNat) * 2 ^ 32 + u.toNat := by
    refine (toNat_append_add (m := 96) (n := 32) _ _).trans ?_
    congr 2
    refine (toNat_append_add (m := 64) (n := 32) _ _).trans ?_
    congr 2
    exact toNat_append_add (m := 32) (n := 32) _ _
  rw [e]
  simp only [BitVec.extractLsb'_toNat, Nat.shiftRight_eq_div_pow]
  omega

/-- The two views cover ACC. -/
@[simp] theorem x64Pack_view : x64Pack (x64View acc) = acc := append_extract (m := 64) (n := 64) acc

/-- MUR32's view and the bits above it cover ACC. -/
@[simp] theorem mur32Write_view : mur32Write acc (mur32View acc) = acc := append_extract (m := 96) (n := 32) acc

end views

/-! ### Blocks in order -/

theorem foldBlocks_succ {α : Type} (bw : Nat) (mix : List Byte → α → α) (k : Nat) (S : List Byte) (h : α) :
    foldBlocks bw mix (k + 1) S h = foldBlocks bw mix k (S.drop bw) (mix (S.take bw) h) := rfl

/-- Only the first `bw * k` bytes count. -/
theorem foldBlocks_append {α : Type} (bw : Nat) (mix : List Byte → α → α) (k : Nat) (S T : List Byte) (h : α)
    (hk : bw * k ≤ S.length) : foldBlocks bw mix k (S ++ T) h = foldBlocks bw mix k S h := by
  induction k generalizing S h with
  | zero => rfl
  | succ k ih =>
    rw [Nat.mul_succ] at hk
    rw [foldBlocks_succ, foldBlocks_succ, List.take_append_of_le_length (by omega),
      List.drop_append_of_le_length (by omega)]
    exact ih _ _ (by rw [List.length_drop]; omega)

/-- First `k` blocks, then `j` more. -/
theorem foldBlocks_add {α : Type} (bw : Nat) (mix : List Byte → α → α) (k j : Nat) (S : List Byte) (h : α) :
    foldBlocks bw mix (k + j) S h = foldBlocks bw mix j (S.drop (bw * k)) (foldBlocks bw mix k S h) := by
  induction k generalizing S h with
  | zero => simp [foldBlocks]
  | succ k ih =>
    rw [Nat.add_right_comm, foldBlocks_succ, foldBlocks_succ, ih, List.drop_drop, Nat.mul_succ, Nat.add_comm bw]

end Sys2Proof.Machine
end

