-- ==== Sys2Proof/Laws/Stream.lean ====
section
/-! SUPPORT. What PUT and FINISH do to a state whose mixer accepts blocks (44_block_buffer.md R193, R195), in closed form:
the bytes already buffered and the bytes fed are one stream, its whole blocks are mixed, its remainder is kept. -/

namespace Sys2Proof.Machine

/-- A state after its mixer took `k` blocks from the front of `S`. -/
def mixed (k : Nat) (S : List Byte) (s : State) : State :=
  { s with
    acc := foldBlocks s.bw (blockAcc s.variant) k S s.acc
    count := s.count + BitVec.ofNat 64 (s.bw * k) }

theorem mixed_zero (S : List Byte) (s : State) : mixed 0 S s = s := by
  simp [mixed, foldBlocks]

theorem mixed_succ (k : Nat) (S : List Byte) (s : State) :
    mixed (k + 1) S s =
      mixed k (S.drop s.bw)
        { s with acc := blockAcc s.variant (S.take s.bw) s.acc, count := s.count + BitVec.ofNat 64 s.bw } := by
  simp only [mixed, foldBlocks, State.bw, State.mk.injEq, true_and, and_true]
  rw [Nat.mul_succ, Nat.add_comm, BitVec.ofNat_add, BitVec.add_assoc]

/-- Step (b) of R193 takes the whole blocks of the input and leaves its remainder. -/
theorem forwardBlocks_ok (fuel : Nat) (d : List Byte) (s : State) (hm : s.mixphase = .blocks) (hf : d.length ≤ fuel) :
    forwardBlocks fuel d s = .ok (mixed (d.length / s.bw) d s, d.drop (s.bw * (d.length / s.bw))) := by
  have hp : 0 < s.bw := blockWidth_pos _
  induction fuel generalizing d s with
  | zero =>
    have : d.length = 0 := by omega
    simp [forwardBlocks, this, mixed_zero]
  | succ fuel ih =>
    rw [forwardBlocks]
    by_cases hle : s.bw ≤ d.length
    · rw [if_pos hle, mixBlock_ok hm]
      have hk : d.length / s.bw = (d.drop s.bw).length / s.bw + 1 := by
        rw [List.length_drop, Nat.div_eq_sub_div hp hle]
      simp only
      rw [ih (d.drop s.bw)
        { s with acc := blockAcc s.variant (d.take s.bw) s.acc, count := s.count + BitVec.ofNat 64 s.bw } hm
        (by rw [List.length_drop]; omega) hp]
      rw [hk, mixed_succ, List.drop_drop, Nat.mul_succ, Nat.add_comm]
      rfl
    · rw [if_neg hle, Nat.div_eq_of_lt (by omega)]
      simp [mixed_zero]

/-- Step (c) of R193 into an empty buffer. -/
theorem keepLeftover_empty (r : List Byte) (u : State) (hu : u.buflen.val = 0) (hr : r.length < 16) :
    (keepLeftover r u).buflen.val = r.length ∧ (keepLeftover r u).buffered = r ∧
      keepLeftover r u = { u with buf := (keepLeftover r u).buf, buflen := (keepLeftover r u).buflen } := by
  refine ⟨?_, ?_, rfl⟩
  · rw [keepLeftover, setBuflen_val _ _ (by omega)]; omega
  · have h0 : u.buffered = [] := by
      rw [State.buffered, hu]; simp
    rw [keepLeftover, buffered_append _ _ (by omega), h0, List.nil_append]

/-- The remainder after the whole blocks. -/
theorem remainder_length (S : List Byte) (bw : Nat) : (S.drop (bw * (S.length / bw))).length = S.length % bw := by
  rw [List.length_drop]
  have := Nat.div_add_mod S.length bw
  omega

/-- The closed form of PUT on ACC, COUNT, BUFLEN and the valid bytes of BUF; nothing else changes (R193). -/
theorem putBytes_ok (d : List Byte) (s : State) (hm : s.mixphase = .blocks) (hl : s.buflen.val < s.bw) :
    ∃ t, putBytes d s = .ok t ∧
      t = { s with
        acc := foldBlocks s.bw (blockAcc s.variant) (wholeBlocks s d) (pending s d) s.acc
        count := s.count + BitVec.ofNat 64 (s.bw * wholeBlocks s d)
        buf := t.buf
        buflen := t.buflen } ∧
      t.buflen.val = (s.buflen.val + d.length) % s.bw ∧
      t.buffered = (pending s d).drop (s.bw * wholeBlocks s d) := by
  have hp : 0 < s.bw := blockWidth_pos _
  have h16 : s.bw ≤ 16 := blockWidth_le _
  have hmod (n : Nat) : n % s.bw < 16 := Nat.lt_of_lt_of_le (Nat.mod_lt _ hp) h16
  by_cases h0 : s.buflen.val = 0
  · -- nothing buffered: step (a) does nothing
    have hpend : pending s d = d := by simp [pending, State.buffered, h0]
    have hk : wholeBlocks s d = d.length / s.bw := by simp [wholeBlocks, h0]
    have hput : putBytes d s = .ok (keepLeftover (d.drop (s.bw * (d.length / s.bw))) (mixed (d.length / s.bw) d s)) := by
      rw [putBytes, fillBuffer, if_pos h0]
      simp only
      rw [forwardBlocks_ok _ _ _ hm (Nat.le_refl _)]
    obtain ⟨k1, k2, k3⟩ :=
      keepLeftover_empty (d.drop (s.bw * (d.length / s.bw))) (mixed (d.length / s.bw) d s) h0
        (by rw [remainder_length]; exact hmod _)
    refine ⟨_, hput, ?_, ?_, ?_⟩
    · rw [hpend, hk]; exact k3
    · rw [k1, remainder_length, h0, Nat.zero_add]
    · rw [k2, hpend, hk]
  · by_cases hfit : s.buflen.val + d.length < s.bw
    · -- the bytes fit into the buffer
      have hmin : min (s.bw - s.buflen.val) d.length = d.length := by omega
      have hk : wholeBlocks s d = 0 := Nat.div_eq_of_lt hfit
      have hput : putBytes d s = .ok (keepLeftover [] (setBuflen (s.buflen.val + d.length) (appendBytes d s))) := by
        rw [putBytes, fillBuffer, if_neg h0]
        simp only [hmin]
        rw [if_neg (by omega)]
        simp [forwardBlocks]
      have hkeep : keepLeftover [] (setBuflen (s.buflen.val + d.length) (appendBytes d s)) =
          setBuflen (s.buflen.val + d.length) (appendBytes d s) := by
        simp only [keepLeftover, appendBytes, bufWrite_nil, List.length_nil, Nat.add_zero]
        rw [setBuflen_val _ _ (by omega)]
        rfl
      rw [hkeep] at hput
      refine ⟨_, hput, ?_, ?_, ?_⟩
      · rw [hk]
        simp only [foldBlocks, Nat.mul_zero, BitVec.add_zero]
        rfl
      · rw [setBuflen_val _ _ (by omega), Nat.mod_eq_of_lt hfit]
      · rw [buffered_append _ _ (by omega), hk]; simp [pending]
    · -- the buffer is completed by the first `n` bytes
      have hn : min (s.bw - s.buflen.val) d.length = s.bw - s.buflen.val := by omega
      have hlen : (d.take (s.bw - s.buflen.val)).length = s.bw - s.buflen.val := by
        rw [List.length_take]; omega
      have hblen : s.buffered.length = s.buflen.val := buffered_length s
      have hfirst : bufRead s.bw (appendBytes (d.take (s.bw - s.buflen.val)) s).buf = (pending s d).take s.bw := by
        have := bufRead_bufWrite (d.take (s.bw - s.buflen.val)) s.buflen.val s.buf (by rw [hlen]; omega)
        rw [hlen, show s.buflen.val + (s.bw - s.buflen.val) = s.bw by omega] at this
        rw [appendBytes_buf, this, pending, List.take_append, hblen]
        rw [List.take_of_length_le (l := s.buffered) (by omega)]
        rfl
      have hrest : d.drop (s.bw - s.buflen.val) = (pending s d).drop s.bw := by
        have hnil : s.buffered.drop s.bw = [] := List.drop_eq_nil_of_le (by omega)
        rw [pending, List.drop_append, hblen, hnil, List.nil_append]
      have hplen : (pending s d).length = s.buflen.val + d.length := by simp [pending]
      have hk : wholeBlocks s d = ((pending s d).drop s.bw).length / s.bw + 1 := by
        rw [wholeBlocks, List.length_drop, hplen, Nat.div_eq_sub_div hp (by omega)]
      -- the state after step (a)
      let s2 : State := setBuflen 0
        { appendBytes (d.take (s.bw - s.buflen.val)) s with
          acc := blockAcc s.variant ((pending s d).take s.bw) s.acc
          count := s.count + BitVec.ofNat 64 s.bw }
      have hfill : fillBuffer d s = .ok (s2, (pending s d).drop s.bw) := by
        rw [fillBuffer, if_neg h0]
        simp only [hn]
        rw [if_pos (by omega), mixBlock_ok (by exact hm), hfirst, hrest]
        rfl
      have hput : putBytes d s =
          .ok (keepLeftover (((pending s d).drop s.bw).drop (s.bw * (((pending s d).drop s.bw).length / s.bw)))
            (mixed (((pending s d).drop s.bw).length / s.bw) ((pending s d).drop s.bw) s2)) := by
        rw [putBytes, hfill]
        simp only
        rw [forwardBlocks_ok _ _ s2 hm (Nat.le_refl _)]
        rfl
      obtain ⟨k1, k2, k3⟩ :=
        keepLeftover_empty (((pending s d).drop s.bw).drop (s.bw * (((pending s d).drop s.bw).length / s.bw)))
          (mixed (((pending s d).drop s.bw).length / s.bw) ((pending s d).drop s.bw) s2) rfl
          (by rw [remainder_length]; exact hmod _)
      refine ⟨_, hput, ?_, ?_, ?_⟩
      · have hmix := mixed_succ (((pending s d).drop s.bw).length / s.bw) (pending s d) s
        rw [← hk] at hmix
        have hacc := congrArg State.acc hmix
        have hcount := congrArg State.count hmix
        simp only [mixed] at hacc hcount
        rw [k3, hacc, hcount]
        rfl
      · rw [k1, remainder_length, List.length_drop, hplen]
        conv_rhs => rw [Nat.mod_eq_sub_mod (by omega)]
      · rw [k2, List.drop_drop, hk, Nat.mul_succ, Nat.add_comm]

/-! ### FINISH -/

/-- The tail and the finalization, in closed form. -/
theorem finalizeHash_ok (s : State) (hm : s.mixphase = .blocks) (hl : s.buflen.val < s.bw) :
    finalizeHash s = .ok { s with acc := finishAcc s, count := finishCount s, mixphase := .finalized } := by
  unfold finalizeHash finishAcc finishCount takeTail
  by_cases h0 : s.buflen.val = 0
  · rw [if_pos h0, if_pos h0]
    simp only
    rw [mixFinalize_ok (by rw [hm]; decide), h0]
    simp
  · rw [if_neg h0, if_neg h0, mixTail_ok hm (by rw [buffered_length]; exact hl), buffered_length]
    rfl

/-- The closed form of FINISH (R195). -/
theorem finishBody_ok (s : State) (hp : s.phase = .active) (hm : s.mixphase = .blocks) (hl : s.buflen.val < s.bw) :
    finishBody s =
      .ok ({ s with
          phase := .finished
          acc := finishAcc s
          count := finishCount s
          buflen := 0
          mixphase := .finalized
          digest := finishDigest s },
        digestWords s.variant (finishDigest s)) := by
  unfold finishBody
  rw [hp]
  simp only
  rw [finalizeHash_ok s hm hl]
  rfl

end Sys2Proof.Machine
end

