-- ==== Sys2Proof/Laws/Commands.lean ====
section
/-! SUPPORT. What the bodies of the commands leave alone, from any state: each lemma says once all that a body that ends in
a state can have changed (44_block_buffer.md R191 to R195, 40_primitives.md R106, R107). -/

namespace Sys2Proof.Machine

/-- ACC after MIX_INIT in closed form (R130, R132, R151, R171). -/
theorem seedAcc_closed (v : Variant) (seed : Reg128) :
    seedAcc v seed = if v = .mur32 then (seed.extractLsb' 0 32).zeroExtend 128 else seed := by
  cases v with
  | mur32 => rfl
  | x86 => simp [seedAcc]
  | x64 => simp [seedAcc]

/-- A rotation strictly inside the word (R100). -/
theorem rotl_inside {w : Nat} (x : BitVec w) (r : Fin (w + 1)) (h0 : 0 < r.val) (h1 : r.val < w) :
    rotl x r = x.rotateLeft r.val := by
  rw [rotl, if_neg (by omega), BitVec.rotateLeft_def, Nat.mod_eq_of_lt h1]

/-! ### PUT -/

section put
variable {s t : State} {b d e : List Byte}

/-- `t` is `s` but for the elements PUT writes (R193). -/
def PutFrame (s t : State) : Prop :=
  t = { s with acc := t.acc, count := t.count, buf := t.buf, buflen := t.buflen }

theorem putFrame_refl (s : State) : PutFrame s s := rfl

theorem PutFrame.trans {u : State} (h1 : PutFrame s t) (h2 : PutFrame t u) : PutFrame s u := by
  unfold PutFrame at *
  rw [h2, h1]

theorem mixBlock_frame (h : mixBlock b s = .ok t) : PutFrame s t := by
  rcases mixBlock_cases b s with ⟨_, e⟩ | ⟨_, e⟩ <;> rw [e] at h <;> cases h
  rfl

theorem fillBuffer_frame (h : fillBuffer d s = .ok (t, e)) : PutFrame s t := by
  rw [fillBuffer] at h
  split at h
  · cases h; rfl
  · simp only at h
    split at h
    · split at h
      · cases h
      · rename_i s2 hb
        cases h
        exact PutFrame.trans (t := s2) (PutFrame.trans (by exact rfl) (mixBlock_frame hb)) rfl
    · cases h; rfl

theorem forwardBlocks_frame {fuel : Nat} (h : forwardBlocks fuel d s = .ok (t, e)) : PutFrame s t := by
  induction fuel generalizing d s with
  | zero => cases h; rfl
  | succ n ih =>
    rw [forwardBlocks] at h
    split at h
    · split at h
      · cases h
      · rename_i hb
        exact (mixBlock_frame hb).trans (ih h)
    · cases h; rfl

/-- PUT writes ACC, COUNT, BUF and BUFLEN only (R193). -/
theorem putBytes_frame (h : putBytes d s = .ok t) : PutFrame s t := by
  rw [putBytes] at h
  split at h
  · cases h
  · rename_i h1
    split at h
    · cases h
    · rename_i h2
      cases h
      exact ((fillBuffer_frame h1).trans (forwardBlocks_frame h2)).trans rfl

end put

/-! ### FINISH -/

section finish
variable {s t : State} {ws : List Word}

theorem takeTail_frame (h : takeTail s = .ok t) :
    t = { s with acc := t.acc, count := t.count, mixphase := t.mixphase } := by
  rw [takeTail] at h
  split at h
  · cases h; rfl
  · rcases mixTail_cases s.buffered s with ⟨_, _, e⟩ | ⟨_, _, e⟩ | ⟨_, e⟩ <;> rw [e] at h <;> cases h
    rfl

/-- FINISH runs from ACTIVE only, and writes ACC, COUNT, MIXPHASE, DIGEST, PHASE and BUFLEN only (R195). -/
theorem finishBody_frame (h : finishBody s = .ok (t, ws)) :
    s.phase = .active ∧
      t = { s with
        acc := t.acc
        count := t.count
        mixphase := .finalized
        digest := digestReg (digestBytes s.variant t.acc)
        phase := .finished
        buflen := 0 } ∧
      ws = digestWords s.variant t.digest := by
  rw [finishBody] at h
  split at h
  · cases h
  · cases h
  · rename_i hph
    refine ⟨hph, ?_⟩
    split at h
    · cases h
    · rename_i e
      rw [finalizeHash] at e
      split at e
      · cases e
      · rename_i s1 e1
        have a := takeTail_frame e1
        rcases mixFinalize_cases s1 with ⟨_, e2⟩ | ⟨_, e2⟩ <;> rw [e2] at e <;> cases e
        rw [deliverDigest] at h
        simp only [mixGetBytes] at h
        cases h
        rw [a]
        exact ⟨rfl, rfl⟩

end finish

/-! ### Every command -/

/-- `t` and `s` agree on the fault registers and on the host interface. -/
structure SameInterface (s t : State) : Prop where
  fault : t.fault = s.fault
  cause : t.cause = s.cause
  faultHdr : t.faultHdr = s.faultHdr
  input : t.input = s.input
  output : t.output = s.output
  resetLine : t.resetLine = s.resetLine

/-- No body touches the fault registers, what has arrived, what has been emitted, or the reset request (R31, R32, R253). -/
theorem bodyOf_sameInterface {i : Instr} {s t : State} {ws : List Word} (h : bodyOf i s = .ok (t, ws)) :
    SameInterface s t := by
  cases i with
  | init op => cases h; constructor <;> rfl
  | start =>
    simp only [bodyOf, startBody] at h
    split at h <;> cases h <;> constructor <;> rfl
  | put d =>
    simp only [bodyOf, putBody] at h
    split at h
    · cases h
    · cases h
    · split at h
      · cases h
      · rename_i e
        cases h
        rw [putBytes_frame e]
        constructor <;> rfl
  | finish =>
    obtain ⟨_, h, _⟩ := finishBody_frame h
    rw [h]
    constructor <;> rfl
  | fmix32 p0 => cases h; constructor <;> rfl
  | fmix64 p0 p1 => cases h; constructor <;> rfl

end Sys2Proof.Machine
end

