-- ==== Sys2Proof/Laws/PerInstr.lean ====
section
/-! SUPPORT. Per-instruction families (LAWS.json). Framing: a well-formed command's header passes the checks of
30_encoding.md R85 and frames exactly its payload (R77). -/

namespace Sys2Proof.Laws.Framing

/-- The header is legal and frames the payload. -/
def Statement (i : Instr) : Prop :=
  i.wf = true → (∃ f, decodeHeader i.header = .ok f) ∧ payloadLen i.header = i.payload.length

theorem init (op : SeedOperand) : Statement (.init op) := fun h =>
  ⟨⟨_, decodeHeader_init op⟩, payloadLen_header _ h⟩

theorem start : Statement .start := fun h => ⟨⟨.start, by decide⟩, payloadLen_header _ h⟩

theorem put (data : List Byte) : Statement (.put data) := fun h =>
  ⟨⟨_, decodeHeader_put data (put_wf_length h)⟩, payloadLen_header _ h⟩

theorem finish : Statement .finish := fun h => ⟨⟨.finish, by decide⟩, payloadLen_header _ h⟩

theorem fmix32 (p0 : Word) : Statement (.fmix32 p0) := fun h =>
  ⟨⟨.fmix32, by simp [decodeHeader, Instr.header]⟩, payloadLen_header _ h⟩

theorem fmix64 (p0 p1 : Word) : Statement (.fmix64 p0 p1) := fun h =>
  ⟨⟨.fmix64, by simp [decodeHeader, Instr.header]⟩, payloadLen_header _ h⟩

end Sys2Proof.Laws.Framing
end

