-- ==== Sys2Proof/Laws/Step.lean ====
section
/-! SUPPORT. Everything one step can do, and when it has none. -/

namespace Sys2Proof.Machine

section step
variable {s t : State}

theorem step_reset (h : s.resetLine = true) : step s = .next (resetEvent s) := by simp [step, h]

theorem step_stopped (hr : s.resetLine = false) (hf : s.fault = true) : step s = .fault .stopped := by
  simp [step, hr, hf]

theorem step_takeCommand (hr : s.resetLine = false) (hf : s.fault = false) : step s = takeCommand s := by
  simp [step, hr, hf]

/-- A command at the front of the input is performed, its words consumed. -/
theorem step_instr (hr : s.resetLine = false) (hf : s.fault = false) {i : Instr} {rest : List Word}
    (hd : decode s.input = .instr i rest) : step s = exec i { s with input := rest } := by
  rw [step_takeCommand hr hf, takeCommand, hd]

/-- A header that spells no command takes its fault, its frame consumed. -/
theorem step_reject (hr : s.resetLine = false) (hf : s.fault = false) {r : Reject} {h : Word} {rest : List Word}
    (hd : decode s.input = .reject r h rest) :
    step s = .next (raiseFault (rejectCause r) h { s with input := rest }) := by
  rw [step_takeCommand hr hf, takeCommand, hd]

/-- Everything a step to a next state can be: the reset, a rejected header's fault, or a command performed. -/
theorem step_next (h : step s = .next t) :
    (s.resetLine = true ∧ t = resetEvent s) ∨
    (s.resetLine = false ∧ s.fault = false ∧
      ((∃ r hd rest, decode s.input = .reject r hd rest ∧
          t = raiseFault (rejectCause r) hd { s with input := rest }) ∨
        ∃ i rest, decode s.input = .instr i rest ∧ exec i { s with input := rest } = .next t)) := by
  by_cases hr : s.resetLine = true
  · rw [step_reset hr] at h
    exact .inl ⟨hr, by simpa using h.symm⟩
  · have hr : s.resetLine = false := by simpa using hr
    by_cases hf : s.fault = true
    · simp [step_stopped hr hf] at h
    · have hf : s.fault = false := by simpa using hf
      refine .inr ⟨hr, hf, ?_⟩
      rw [step_takeCommand hr hf, takeCommand] at h
      cases hd : decode s.input with
      | noHeader => simp [hd] at h
      | short => simp [hd] at h
      | reject r hw rest =>
        simp only [hd, Host.Outcome.next.injEq] at h
        exact .inl ⟨r, hw, rest, rfl, h.symm⟩
      | instr i rest =>
        simp only [hd] at h
        exact .inr ⟨i, rest, rfl, h⟩

end step

end Sys2Proof.Machine
end

