-- ==== Sys2Proof/Tests/Slice0.lean ====
section
/-! SUPPORT. The model's own tests. Expected values come from the spec: the encodings of 30_encoding.md, the examples of the
rules, 95_test_vectors.md. Then, for every obligation with hypotheses, a witness that meets them together, clause by clause. -/

open Sys2Proof Sys2Proof.Machine

namespace Sys2Proof.Tests

/-! ### Helpers -/

/-- A state in a given phase, its variant, its mixer phase. -/
def stateIn (p : Phase) (v : Variant) (m : MixPhase) : State := { State.reset with phase := p, variant := v, mixphase := m }

/-- An idle block, an active one, a finished one. -/
def idle : State := State.reset
def active (v : Variant) : State := stateIn .active v .blocks
def finished (v : Variant) : State := stateIn .finished v .finalized

/-- A faulted block. -/
def faulted : State := { State.reset with fault := true, cause := .illegalOpcode, faultHdr := 7 }

/-- The host has sent words. -/
def sent (ws : List Word) (s : State) : State := { s with input := ws }

/-- An active block with bytes in its buffer, an accumulator and a count. -/
def holding (v : Variant) (bs : List Byte) (acc : Reg128) (count : BitVec 64) : State :=
  { active v with
    buf := bufWrite 0 bs (Vector.replicate 16 0xEE)
    buflen := Fin.ofNat 16 bs.length
    acc := acc
    count := count }

/-- The next state of an answer, if it has one. -/
def next? : Answer → Option State
  | .next s => some s
  | .fault _ => none
  | .refused _ => none

/-- The response words of an answer. -/
def response (a : Answer) : Option (List Word) := (next? a).map State.output

/-- Why an answer has no next state. -/
def stop? : Answer → Option Fault
  | .next _ => none
  | .fault r => some r
  | .refused _ => none

/-- The bytes `abc...` of the spec's examples. -/
def letters (n : Nat) : List Byte := (List.range n).map fun i => BitVec.ofNat 8 (0x61 + i)

/-! ### WellFormed: a PUT of 256 bytes is refused (R75) -/

theorem test_wf_put_256 : (Instr.put (List.replicate 256 0)).wf = false := by decide +kernel
theorem test_wf_put_255 : (Instr.put (List.replicate 255 0)).wf = true := by decide +kernel

/-! ### Decode: words written out from R71, R77 to R80 -/

theorem test_decode_init_mur32 :
    decode [0b00000000000000000000000000000001, 7] = .instr (.init (.mur32 .broadcast 7)) [] := by decide
theorem test_decode_init_mur32_lanes :
    decode [0b00000000000000000000000001000001, 7] = .instr (.init (.mur32 .perLane 7)) [] := by decide
theorem test_decode_init_x86 :
    decode [0b00000000000000000000000000010001, 7] = .instr (.init (.x86Broadcast 7)) [] := by decide
theorem test_decode_init_x86_lanes :
    decode [0b00000000000000000000000001010001, 1, 2, 3, 4, 5] = .instr (.init (.x86PerLane 1 2 3 4)) [5] := by decide
theorem test_decode_init_x64 :
    decode [0b00000000000000000000000000100001, 0x89ABCDEF, 0x01234567] =
      .instr (.init (.x64Broadcast 0x0123456789ABCDEF)) [] := by decide
theorem test_decode_init_x64_lanes :
    decode [0b00000000000000000000000001100001, 1, 2, 3, 4] =
      .instr (.init (.x64PerLane 0x0000000200000001 0x0000000400000003)) [] := by decide
theorem test_decode_start : decode [0b00000000000000000000000000000010, 9] = .instr .start [9] := by decide
/-- The example of R79, with the ignored bytes set. -/
theorem test_decode_put :
    decode [0b00000000000000000000010100000011, 0x64636261, 0xFFFFFF65] = .instr (.put (letters 5)) [] := by decide
theorem test_decode_put_empty : decode [0b00000000000000000000000000000011] = .instr (.put []) [] := by decide
theorem test_decode_put_longest :
    decode (0b00000000000000001111111100000011 :: List.replicate 64 0x61616161) =
      .instr (.put (List.replicate 255 0x61)) [] := by decide +kernel
theorem test_decode_finish : decode [0b00000000000000000000000000000100] = .instr .finish [] := by decide
theorem test_decode_fmix32 : decode [0b00000000000000000000000000000101, 1] = .instr (.fmix32 1) [] := by decide
theorem test_decode_fmix64 : decode [0b00000000000000000000000000000110, 1, 2] = .instr (.fmix64 1 2) [] := by decide

/-- Illegal encodings (R84): every reserved OP, VAR = 3, each reserved bit, each field another OP uses. -/
theorem test_decode_illegal_opcodes :
    [0, 7, 8, 9, 10, 11, 12, 13, 14, 15].all (fun h : Word => decode [h] == .reject .illegalOpcode h []) = true := by
  decide
theorem test_decode_reserved_fields :
    [0x00000031, 0x00010002, 0x80000002, 0x00000082, 0x00000102, 0x00008004, 0x00000014, 0x00000044, 0x00000083,
      0x00010003, 0x00000013, 0x00000043].all
      (fun h : Word => decode [h] == .reject .reservedField h []) = true := by decide
/-- A header with a reserved-field violation is framed with the payload length of its OP (R77; log 11). -/
theorem test_decode_reserved_framed :
    decode [0x00000105, 1, 2] = .reject .reservedField 0x00000105 [2] := by decide
theorem test_decode_waits : decode [0x00000006, 1] = .short ∧ decode [] = .noHeader := by decide

/-! ### The opcode table's words -/

theorem test_table_words :
    decodeTableWord 32 0x00000001 = some (.init (.mur32 .broadcast 0)) ∧
    decodeTableWord 32 0x00000002 = some .start ∧
    decodeTableWord 32 0x00000003 = some (.put []) ∧
    decodeTableWord 32 0x00000004 = some .finish ∧
    decodeTableWord 32 0x00000005 = some (.fmix32 0) ∧
    decodeTableWord 32 0x00000006 = some (.fmix64 0 0) := by
  refine ⟨?_, ?_, ?_, ?_, ?_, ?_⟩ <;> decide

/-- After reset: INIT and the finalizers are performed, START, PUT and FINISH fault NOT_CONFIGURED (R293). -/
theorem test_first_step :
    response (step (State.reset.withFetchWord 32 0x00000001)) = some [0x00000100] ∧
    response (step (State.reset.withFetchWord 32 0x00000002)) = some [0x00000231] ∧
    response (step (State.reset.withFetchWord 32 0x00000003)) = some [0x00000331] ∧
    response (step (State.reset.withFetchWord 32 0x00000004)) = some [0x00000431] ∧
    response (step (State.reset.withFetchWord 32 0x00000005)) = some [0x00000500, 0] ∧
    response (step (State.reset.withFetchWord 32 0x00000006)) = some [0x00000600, 0, 0] := by
  refine ⟨?_, ?_, ?_, ?_, ?_, ?_⟩ <;> decide

/-! ### One step -/

/-- R151's example, from a finished block of another variant. -/
theorem test_init_lanes :
    (next? (step (sent [0x00000051, 1, 2, 3, 4] (finished .mur32)))).map
      (fun s => (x86View s.acc, s.variant, s.phase, s.mixphase)) =
      some ({ h1 := 1, h2 := 2, h3 := 3, h4 := 4 }, .x86, .active, .blocks) := by decide

/-- R191's corner case: INIT while ACTIVE drops buffered bytes. -/
theorem test_init_drops_buffer :
    (next? (step (sent [0x00000001, 0x2A] (holding .x86 (letters 9) 5 16)))).map
      (fun s => (s.acc, s.buflen, s.count)) = some (0x2A, 0, 0) := by decide

/-- R192: START from FINISHED restores the seeds. -/
theorem test_start :
    (next? (step (sent [2] { finished .x64 with seed := 0x00000000000000020000000000000001, digest := 9, count := 7 }))).map
      (fun s => (x64View s.acc, s.digest, s.count, s.phase)) = some ({ h1 := 1, h2 := 2 }, 0, 0, .active) := by decide

/-- R192: START before INIT faults and changes nothing else. -/
theorem test_start_idle :
    (next? (step (sent [2] idle))).map (fun s => (s.fault, s.cause, s.faultHdr, s.phase, s.output)) =
      some (true, .notConfigured, 2, .idle, [0x00000231]) := by decide

/-- R193's example: "ab" is buffered, PUT "cde" mixes "abcd" and keeps "e". -/
theorem test_put_across_block :
    (next? (step (sent [0x00000303, 0x00656463] (holding .mur32 (letters 2) 0 0)))).map
      (fun s => (s.acc, s.count, s.buffered, s.output)) = some (0x86A7049E, 4, [0x65], [0x00000300]) := by decide

/-- R152's example: one whole block straight from the input. -/
theorem test_put_block :
    (next? (exec (.put (letters 16)) (active .x86))).map (fun s => (x86View s.acc, s.count, s.buflen)) =
      some ({ h1 := 0x2F76AA7C, h2 := 0x3F3E5029, h3 := 0xB119A7A7, h4 := 0xC7B383A4 }, 16, 0) := by decide

/-- R195's example: the tail "e" of "abcde". -/
theorem test_finish_mur32 :
    (next? (step (sent [4] (holding .mur32 [0x65] 0x86A7049E 4)))).map
      (fun s => (s.output, s.digest, s.count, s.phase)) =
      some ([0x00000400, 0xE89B9AF6], 0xE89B9AF6, 5, .finished) := by decide

/-- R232's example: X64_128 of "a". -/
theorem test_finish_x64 :
    response (step (sent [4] (holding .x64 [0x61] 0 0))) =
      some [0x00000400, 0x510E895A, 0xE6B53A48, 0xF6597889, 0x85555565] := by decide

/-- R106's example. -/
theorem test_fmix32 : response (step (sent [5, 1] idle)) = some [0x00000500, 0x514E28B7] := by decide

/-- R107's example: low word first. -/
theorem test_fmix64 : response (step (sent [6, 1, 0] idle)) = some [0x00000600, 0x34C2CB2C, 0xB456BCFC] := by decide

/-- R254's and R258's examples. -/
theorem test_fault_responses :
    response (step (sent [0x00000103, 0] (finished .mur32))) = some [0x00000341] ∧
    response (step (sent [7] idle)) = some [0x00000711] ∧
    response (step (sent [0x00000104] idle)) = some [0x00000421] ∧
    response (step (sent [4] (finished .x86))) = some [0x00000451] := by
  refine ⟨?_, ?_, ?_, ?_⟩ <;> decide

/-- R255: no command after a fault; R290: reset leaves it. -/
theorem test_fault_until_reset :
    stop? (step (sent [5, 1] faulted)) = some .stopped ∧ next? (step (requestReset (sent [5, 1] faulted))) = some State.reset := by
  refine ⟨?_, ?_⟩ <;> decide

/-- R297: the block waits. -/
theorem test_waits : stop? (step idle) = some .awaitingHeader ∧ stop? (step (sent [6, 1] idle)) = some .awaitingPayload := by
  refine ⟨?_, ?_⟩ <;> decide

/-- The other variants' tails and finalizations: R153, R173, R154, R174. -/
theorem test_tail_x86 :
    x86Tail (letters 13) { h1 := 0, h2 := 0, h3 := 0, h4 := 0 } =
      { h1 := 0x7255ABD5, h2 := 0x2A7D0525, h3 := 0x04940A85, h4 := 0x2C95A173 } := by decide
theorem test_tail_x64 :
    x64Tail (letters 13) { h1 := 0, h2 := 0 } = { h1 := 0x2C206ECA25D3CF80, h2 := 0xCA67454391DD2836 } := by decide
theorem test_block_x64 :
    x64Block (letters 16) { h1 := 0, h2 := 0 } = { h1 := 0x95E9186C59C1F877, h2 := 0xD35CC0A6C2B58789 } := by decide
theorem test_finalize_x86 :
    x86Finalize 1 { h1 := 0xD02E1241, h2 := 0, h3 := 0, h4 := 0 } =
      { h1 := 0xA794933C, h2 := 0x5556B01B, h3 := 0x5556B01B, h4 := 0x5556B01B } := by decide
theorem test_finalize_x64 :
    x64Finalize 1 { h1 := 0xF49ED48E325AB585, h2 := 0 } = { h1 := 0x85555565F6597889, h2 := 0xE6B53A48510E895A } := by
  decide
/-- R135's corner case: the count's bits above 31 do not reach h1. -/
theorem test_finalize_mur32_count : mur32Finalize 0x100000003 0 = 0x85F0B427 := by decide
/-- R100's and R101's examples. -/
theorem test_rotl : rotl (0x80000001 : Word) 1 = 0x00000003 ∧ rotl (0x12345678 : Word) 15 = 0x2B3C091A := by decide
theorem test_shuffle : shuffle (1 : Word) 0xcc9e2d51 0x1b873593 15 = 0xC3539A5D := by decide
/-- R238's example. -/
theorem test_hex : hexDigest [0xB2, 0x69, 0x25, 0x3C] = "B269253C".toList := by decide
/-- Source vectors of 95_test_vectors.md section 2.3, prefix 26. -/
theorem test_hash_x86 : (x86Hash { h1 := 0, h2 := 0, h3 := 0, h4 := 0 } (letters 26)).take 4 = [0x13, 0x06, 0x34, 0x3E] := by
  decide +kernel

/-! ### Witnesses -/

theorem active_inv (v : Variant) : WrapperInv (active v) := by
  cases v <;> refine ⟨?_, ?_, ?_, ?_, ?_, ?_⟩ <;> decide

theorem reset_inv : WrapperInv State.reset := by refine ⟨?_, ?_, ?_, ?_, ?_, ?_⟩ <;> decide

theorem finished_inv (v : Variant) : WrapperInv (finished v) := by
  cases v <;> refine ⟨?_, ?_, ?_, ?_, ?_, ?_⟩ <;> decide

/-- A full buffer but for one byte, in each variant. -/
theorem holding_inv : WrapperInv (holding .mur32 (letters 3) 9 4) ∧ WrapperInv (holding .x86 (letters 15) 9 16) ∧
    WrapperInv (holding .x64 (letters 15) 9 16) := by
  refine ⟨?_, ?_, ?_⟩ <;> refine ⟨?_, ?_, ?_, ?_, ?_, ?_⟩ <;> decide

theorem witness_stepRunsDecodedCommand :
    ∃ (s : State) (i : Instr) (rest : List Word), s.resetLine = false ∧ s.fault = false ∧ i.wf = true ∧
      s.input = encode i ++ rest :=
  ⟨sent (encode (.put (List.replicate 255 1)) ++ [4]) (active .x86), .put (List.replicate 255 1), [4], rfl, rfl,
    by decide +kernel, rfl⟩

theorem witness_stepRunsDecodedCommand_words :
    ∃ (s : State) (i : Instr) (rest : List Word), s.resetLine = false ∧ s.fault = false ∧ decode s.input = .instr i rest :=
  ⟨sent [0x00000503, 0x64636261, 0xFFFFFF65, 4] idle, .put (letters 5), [4], rfl, rfl, by decide⟩

theorem witness_decodeEncodeRoundTrip :
    (Instr.put []).wf = true ∧ (Instr.put (List.replicate 255 0xFF)).wf = true ∧ (Instr.init (.x64PerLane 1 2)).wf = true := by
  decide +kernel

theorem witness_decodedWordsAreTheEncoding :
    decode [0x00000503, 0x64636261, 0xFFFFFF65] = .instr (.put (letters 5)) [] ∧
    (∀ d, Instr.start ≠ .put d) ∧ decode [2] = .instr .start [] :=
  ⟨by decide, nofun, by decide⟩

/-- A header for every row of the table: INIT's six, START, PUT with no byte and with 255, FINISH, FMIX32, FMIX64, the
lowest and the highest reserved OP. -/
theorem witness_payloadLengthTable :
    [0x01, 0x41, 0x11, 0x51, 0x21, 0x61, 0x31, 0x02, 0x03, 0xFF03, 0x04, 0x05, 0x06, 0x00, 0x07, 0x0F].map
      (fun h : Word => (h.toNat % 16, h.toNat / 16 % 4, h.toNat / 64 % 2, h.toNat / 256 % 256)) =
    [(1, 0, 0, 0), (1, 0, 1, 0), (1, 1, 0, 0), (1, 1, 1, 0), (1, 2, 0, 0), (1, 2, 1, 0), (1, 3, 0, 0), (2, 0, 0, 0),
      (3, 0, 0, 0), (3, 0, 0, 255), (4, 0, 0, 0), (5, 0, 0, 0), (6, 0, 0, 0), (0, 0, 0, 0), (7, 0, 0, 0), (15, 0, 0, 0)] := by
  decide

theorem witness_payloadLengthTable_fault :
    (sent [0x00000106, 1, 2, 3] idle).resetLine = false ∧ (sent [0x00000106, 1, 2, 3] idle).fault = false ∧
    payloadLen 0x00000106 ≤ [1, 2, (3 : Word)].length ∧ decodeHeader 0x00000106 = .error .reservedField ∧
    decodeHeader 0x0000000F = .error .illegalOpcode := by
  exact ⟨rfl, rfl, by decide, rfl, rfl⟩

/-- A step to a next state, for the statements that assume one. -/
theorem witness_step_next :
    (sent [5, 1, 4] idle).resetLine = false ∧ (next? (step (sent [5, 1, 4] idle))).isSome = true := by decide

theorem witness_putPayloadPacking :
    (255 : Nat) ≤ 255 ∧ (List.replicate 64 (0xAABBCCDD : Word)).length = (255 + 3) / 4 ∧ ([] : List Word).length = (0 + 3) / 4 ∧
    (∀ j, j < 5 →
      ([0x64636261, (0x00000065 : Word)].getD (j / 4) 0).extractLsb' (8 * (j % 4)) 8 =
        ([0x64636261, (0xFFFFFF65 : Word)].getD (j / 4) 0).extractLsb' (8 * (j % 4)) 8) := by decide

theorem witness_initSeedTable :
    [[0x01, 7], [0x41, 7], [0x11, 7], [0x51, 1, 2, 3, 4], [0x21, 1, 2], [0x61, 1, 2, 3, 4]].all
      (fun ws : List Word => (sent ws idle).resetLine == false && (sent ws idle).fault == false && (sent ws idle).input == ws) =
      true := by decide

theorem witness_byteLinkCarriesWords : 0 < 4 * [(5 : Word)].length ∧ 3 < 4 * [(5 : Word)].length := by decide

theorem witness_stepsPerformTheStream :
    (∀ i ∈ [Instr.init (.mur32 .broadcast 0), .put (letters 1), .finish], i.wf = true) ∧
    (sent (encodeAll [.init (.mur32 .broadcast 0), .put (letters 1), .finish] ++ []) idle).resetLine = false := by decide

theorem witness_resetLine : (requestReset faulted).resetLine = true ∧ (requestReset faulted).fault = true := by decide

theorem witness_stepKeepsWrapperInvariants :
    WrapperInv (sent [4] (holding .mur32 (letters 3) 9 4)) ∧
    (next? (step (sent [4] (holding .mur32 (letters 3) 9 4)))).isSome = true :=
  ⟨by refine ⟨?_, ?_, ?_, ?_, ?_, ?_⟩ <;> decide, by decide⟩

/-- With a fault to come, and with none. -/
theorem witness_stepKeepsFaultRegisters :
    WrapperInv (sent [4] idle) ∧ FaultInv (sent [4] idle) ∧ (next? (step (sent [4] idle))).isSome = true ∧
    FaultInv (requestReset faulted) := by
  refine ⟨by refine ⟨?_, ?_, ?_, ?_, ?_, ?_⟩ <;> decide, ⟨?_, ?_⟩, ?_, ⟨?_, ?_⟩⟩ <;> decide

theorem witness_stepKeepsUnusedSeedBitsZero :
    SeedInv (sent [0x21, 1, 2] idle) ∧ (next? (step (sent [0x21, 1, 2] idle))).isSome = true ∧
    SeedInv (sent [0x01, 1] { finished .x64 with seed := 0xFFFFFFFFFFFFFFFFFFFFFFFFFFFFFFFF }) := by
  refine ⟨?_, ?_, ?_⟩
  · unfold SeedInv; decide
  · decide
  · unfold SeedInv; decide

/-- One header and phase for each of the five checks, and one that passes them all in each phase. -/
theorem witness_firstFailingCheck :
    firstFailingCheck 0x80000007 .active = some .illegalOpcode ∧ firstFailingCheck 0x00000104 .idle = some .reservedField ∧
    firstFailingCheck 0x00000031 .idle = some .reservedField ∧ firstFailingCheck 2 .idle = some .notConfigured ∧
    firstFailingCheck 3 .idle = some .notConfigured ∧ firstFailingCheck 4 .idle = some .notConfigured ∧
    firstFailingCheck 3 .finished = some .putAfterFinish ∧ firstFailingCheck 4 .finished = some .finishAfterFinish ∧
    firstFailingCheck 1 .idle = none ∧ firstFailingCheck 0xFF03 .active = none ∧ firstFailingCheck 6 .finished = none := by
  decide

theorem witness_firstFailingCheck_state :
    (sent [0x00000104] idle).resetLine = false ∧ (sent [0x00000104] idle).fault = false ∧
    payloadLen 0x00000104 ≤ ([] : List Word).length ∧ WrapperInv (sent [1, 5] idle) ∧ payloadLen 1 ≤ [(5 : Word)].length :=
  ⟨rfl, rfl, by decide, by refine ⟨?_, ?_, ?_, ?_, ?_, ?_⟩ <;> decide, by decide⟩

/-- The three mixer phases, and tails one byte short of a block and a whole block, in each variant. -/
theorem witness_mixer_phases :
    (stateIn .active .mur32 .blocks).mixphase = .blocks ∧ (stateIn .active .mur32 .tailTaken).mixphase ≠ .blocks ∧
    (stateIn .active .mur32 .tailTaken).mixphase ≠ .finalized ∧ (finished .x86).mixphase = .finalized ∧
    (letters 3).length < (active .mur32).bw ∧ (active .mur32).bw ≤ (letters 4).length ∧
    (letters 15).length < (active .x86).bw ∧ (active .x86).bw ≤ (letters 16).length ∧
    (letters 15).length < (active .x64).bw ∧ (active .x64).bw ≤ (letters 16).length := by decide

theorem witness_faultEntryIsPrecise :
    (sent [0x00000403, 9, 5] (finished .x64)).resetLine = false ∧
    (next? (step (sent [0x00000403, 9, 5] (finished .x64)))).map State.fault = some true := by decide

theorem witness_faulted : faulted.fault = true ∧ faulted.resetLine = false ∧ stop? (exec .finish faulted) = some .stopped := by
  decide

theorem witness_noStep :
    idle.resetLine = false ∧ idle.fault = false ∧ idle.input = [] ∧ [(1 : Word)].length < payloadLen 6 ∧
    payloadLen 6 ≤ [(1 : Word), 2].length := by decide

/-- A performed command and a faulting one. -/
theorem witness_responseFormat :
    (next? (step (sent [4] (active .x86)))).map State.fault = some false ∧
    (next? (step (sent [4] idle))).map State.fault = some true := by decide

/-- The commands' hypotheses: every phase, with FAULT = 0. -/
theorem witness_commands :
    idle.fault = false ∧ idle.phase = .idle ∧ (active .mur32).fault = false ∧ (active .mur32).phase = .active ∧
    (active .mur32).phase ≠ .idle ∧ (finished .mur32).fault = false ∧ (finished .mur32).phase = .finished ∧
    (finished .mur32).phase ≠ .idle ∧ WrapperInv (active .mur32) := by
  exact ⟨rfl, rfl, rfl, rfl, by decide, rfl, rfl, by decide, active_inv _⟩

/-- PUT and FINISH with an empty buffer and with one that lacks one byte. -/
theorem witness_put_finish :
    WrapperInv (active .x64) ∧ (active .x64).fault = false ∧ (active .x64).phase = .active ∧ (active .x64).buflen.val = 0 ∧
    WrapperInv (holding .x64 (letters 15) 9 16) ∧ (holding .x64 (letters 15) 9 16).phase = .active ∧
    (holding .x64 (letters 15) 9 16).buflen.val = 15 ∧ (List.replicate 255 (0 : Byte)).length ≤ 255 :=
  ⟨active_inv _, rfl, rfl, rfl, holding_inv.2.2, rfl, by decide, by decide +kernel⟩

/-- Headers with a set bit their OP reserves: the lowest and the highest, each OP (R76). -/
theorem witness_faultsReserved :
    ([0x00000031, 0x00000081, 0x00000101, 0x00008001, 0x00010001, 0x80000001].all fun h : Word =>
      h.toNat % 16 == 1 && decide (payloadLen h ≤ 1) &&
        (h.toNat / 16 % 4 == 3 || h.toNat / 128 % 2 != 0 || h.toNat / 256 % 256 != 0 || h.toNat / 65536 != 0)) = true ∧
    ([0x00000013, 0x00000083, 0x00010003, 0x80000003].all fun h : Word =>
      h.toNat % 16 == 3 && payloadLen h == 0 && (h.toNat / 16 % 16 != 0 || h.toNat / 65536 != 0)) = true ∧
    ([(0x00000012, 2, 0), (0x80000002, 2, 0), (0x00000014, 4, 0), (0x80000004, 4, 0), (0x00000015, 5, 1),
        (0x80000005, 5, 1), (0x00000016, 6, 2), (0x80000006, 6, 2)].all fun (h, op, n) =>
      (h : Word).toNat % 16 == op && payloadLen h == n && h.toNat / 16 != 0) = true := by decide

theorem witness_faultsReserved_state :
    (sent [0x80000006, 1, 2] idle).resetLine = false ∧ (sent [0x80000006, 1, 2] idle).fault = false ∧
    (sent [0x80000006, 1, 2] idle).input = 0x80000006 :: [1, 2] := by decide

/-- Commands that do write an element, for the statement that names the writers. -/
theorem witness_onlyNamedCommandsWrite :
    (next? (exec (.put (letters 5)) (active .mur32))).map
      (fun t => (decide (t.acc ≠ 0), decide (t.count ≠ 0), decide (t.buflen ≠ 0), t.fault)) =
      some (true, true, true, false) ∧
    (next? (exec (.init (.x64Broadcast 3)) idle)).map
      (fun t => (decide (t.phase ≠ .idle), decide (t.variant ≠ .mur32), decide (t.seed ≠ 0))) = some (true, true, true) := by
  decide

theorem witness_finishedAccumulatorReadOnly :
    (sent [5, 1] (finished .x64)).resetLine = false ∧ (sent [5, 1] (finished .x64)).phase = .finished ∧
    (next? (step (sent [5, 1] (finished .x64)))).map State.phase = some .finished := by decide

theorem witness_startRestoresWhatInitConstructed :
    (next? (exec (.init (.mur32 .broadcast 7)) idle)).isSome = true ∧
    (∀ i ∈ [Instr.put (letters 1), .finish, .start, .fmix32 0], ∀ op', i ≠ .init op') ∧
    ((next? (exec (.init (.mur32 .broadcast 7)) idle)).bind
      (fun t => next? (execAll [.put (letters 1), .finish, .start, .fmix32 0] t))).map State.fault = some false := by
  refine ⟨by decide, ?_, by decide +kernel⟩
  intro i hi op'
  simp only [List.mem_cons, List.not_mem_nil, or_false] at hi
  rcases hi with rfl | rfl | rfl | rfl <;> nofun

/-- States that differ in a byte of BUF above BUFLEN, and only there. -/
theorem witness_staleBufferBytesNeverRead :
    AgreeButStale (holding .x86 (letters 3) 0 0)
        { holding .x86 (letters 3) 0 0 with buf := (holding .x86 (letters 3) 0 0).buf.set 3 0x11 } ∧
      (holding .x86 (letters 3) 0 0).buf ≠ (holding .x86 (letters 3) 0 0).buf.set 3 0x11 ∧
      WrapperInv (holding .x86 (letters 3) 0 0) :=
  ⟨⟨rfl, by decide⟩, by decide, by refine ⟨?_, ?_, ?_, ?_, ?_, ?_⟩ <;> decide⟩

/-- Rotation amounts at both ends and inside, in both word widths. -/
theorem witness_rotl :
    (0 : Fin 33).val = 0 ∧ (32 : Fin 33).val = 32 ∧ (0 < (1 : Fin 33).val ∧ (1 : Fin 33).val < 32) ∧
    (0 < (63 : Fin 65).val ∧ (63 : Fin 65).val < 64) ∧ (31 : Nat) < 32 := by decide

/-- The mixers' hypotheses: each variant in each mixer phase. -/
theorem witness_mixers :
    (active .mur32).variant = .mur32 ∧ (active .mur32).mixphase = .blocks ∧
    (stateIn .active .x86 .tailTaken).variant ≠ .mur32 ∧ (stateIn .active .x86 .tailTaken).mixphase ≠ .blocks ∧
    (stateIn .active .x86 .tailTaken).mixphase ≠ .finalized ∧ (active .x86).variant = .x86 ∧ (active .x86).mixphase = .blocks ∧
    (active .x64).variant = .x64 ∧ (active .x64).mixphase = .blocks ∧ (finished .x64).mixphase = .finalized ∧
    (finished .mur32).variant = .mur32 ∧ (finished .x86).variant = .x86 ∧ (finished .x64).variant = .x64 ∧
    (letters 16).length = 16 ∧ (letters 15).length < 16 ∧ ([] : List Byte).length < 16 ∧ 4 ≤ (letters 4).length := by decide

theorem witness_digestIsAFunctionOfAcc :
    (next? (exec .finish (holding .mur32 [0x61] 0 0))).map (fun t => (t.fault, t.variant)) = some (false, .mur32) ∧
    (next? (exec .finish (holding .x86 [0x61] 0 0))).map (fun t => (t.fault, t.variant)) = some (false, .x86) ∧
    (next? (exec .finish (holding .x64 [0x61] 0 0))).map (fun t => (t.fault, t.variant)) = some (false, .x64) := by decide

theorem witness_rehash :
    (next? (execAll (hashCommands (.mur32 .broadcast 0) (letters 1)) idle)).isSome = true := by decide +kernel

/-- Every INIT form with seed 0. -/
theorem witness_emptyInput :
    seedView (.mur32 .broadcast 0) = 0 ∧ seedView (.x86Broadcast 0) = 0 ∧ seedView (.x86PerLane 0 0 0 0) = 0 ∧
    seedView (.x64Broadcast 0) = 0 ∧ seedView (.x64PerLane 0 0) = 0 := by decide

/-- Two instances: one driven by one host, one by two. -/
theorem witness_instances :
    ([{ hosts := 1, block := sent [5, 1] idle }, { hosts := 2, block := idle }] : List Attached)[1].hosts ≠ 1 ∧
    (match stepInstance [{ hosts := 1, block := sent [5, 1] idle }, { hosts := 2, block := idle }] ⟨0, by decide⟩ with
      | .next _ => true
      | .fault _ => false
      | .refused _ => false) = true := by decide

end Sys2Proof.Tests
end

/-! SUPPORT. Encoding (30_encoding.md): the payload length by the header's numeric fields (R77), PUT's bytes by position
(R79), the seeds an INIT writes (R78), and the form of every response (R81, R82). -/

namespace Sys2Proof

/-! ### The payload length by the header's fields (R77) -/

theorem smOf_of_zero {b : BitVec 1} (h : b.toNat = 0) : smOf b = .broadcast :=
  if_pos (BitVec.eq_of_toNat_eq h)

theorem smOf_of_one {b : BitVec 1} (h : b.toNat = 1) : smOf b = .perLane :=
  if_neg fun hb => by simp [hb] at h

section payloadLen
variable {h : Word}

/-- A legal INIT header frames the words of its variant and seed mode. -/
theorem payloadLen_init {v : Variant} (ho : h.toNat % 16 = 1) (hv : varOf (hdrVar h) = some v) :
    payloadLen h = initPayloadLen v (smOf (hdrSm h)) := by
  simp only [payloadLen, hdrOp_toNat, ho, hv]

/-- INIT with VAR = 3 frames no word. -/
theorem payloadLen_init_reserved (ho : h.toNat % 16 = 1) (hv : varOf (hdrVar h) = none) : payloadLen h = 0 := by
  simp only [payloadLen, hdrOp_toNat, ho, hv]

/-- PUT frames its bytes, four to a word, rounded up. -/
theorem payloadLen_put (ho : h.toNat % 16 = 3) : payloadLen h = (h.toNat / 256 % 256 + 3) / 4 := by
  simp only [payloadLen, hdrOp_toNat, ho, hdrLen_toNat]

theorem payloadLen_fmix32 (ho : h.toNat % 16 = 5) : payloadLen h = 1 := by
  simp only [payloadLen, hdrOp_toNat, ho]

theorem payloadLen_fmix64 (ho : h.toNat % 16 = 6) : payloadLen h = 2 := by
  simp only [payloadLen, hdrOp_toNat, ho]

/-- START, FINISH and the reserved OPs frame no word. -/
theorem payloadLen_eq_zero (h1 : h.toNat % 16 ≠ 1) (h3 : h.toNat % 16 ≠ 3) (h5 : h.toNat % 16 ≠ 5)
    (h6 : h.toNat % 16 ≠ 6) : payloadLen h = 0 := by
  simp only [payloadLen, hdrOp_toNat]

end payloadLen

/-- The variant that VAR's number names (R73). -/
theorem varOf_hdrVar {h : Word} {n : Nat} (hv : h.toNat / 16 % 4 = n) :
    varOf (hdrVar h) = [Variant.mur32, .x86, .x64][n]? := by
  have hn : n < 4 := by omega
  rw [← hdrVar_toNat] at hv
  simp only [varOf, hv]
  interval_cases n <;> rfl

/-! ### PUT's bytes by position (R79) -/

/-- Byte `j` on the link is byte `j mod 4` of word `j div 4` (R53). -/
theorem linkBytes_getElem? (ws : List Word) (j : Nat) (hj : j < 4 * ws.length) :
    (linkBytes ws)[j]? = some ((ws.getD (j / 4) 0).extractLsb' (8 * (j % 4)) 8) := by
  induction ws generalizing j with
  | nil => simp at hj
  | cons w ws ih =>
    rw [linkBytes_cons]
    by_cases h4 : j < 4
    · have hb : j < (bytesLe 4 w).length := by simpa using h4
      rw [List.getElem?_append_left hb, List.getElem?_eq_getElem hb, bytesLe_getElem,
        Nat.div_eq_of_lt h4, Nat.mod_eq_of_lt h4, List.getD_cons_zero]
    · obtain ⟨k, rfl⟩ : ∃ k, j = k + 4 := ⟨j - 4, by omega⟩
      rw [List.getElem?_append_right (by simp), bytesLe_length, Nat.add_sub_cancel,
        ih k (by simp only [List.length_cons] at hj; omega), Nat.add_div_right k (by decide), Nat.add_mod_right,
        List.getD_cons_succ]

theorem unpackBytes_getElem? {len : Nat} {p : List Word} (hp : len ≤ 4 * p.length) (j : Nat) (hj : j < len) :
    (unpackBytes len p)[j]? = some ((p.getD (j / 4) 0).extractLsb' (8 * (j % 4)) 8) := by
  rw [unpackBytes, List.getElem?_take_of_lt hj, linkBytes_getElem? p j (by omega)]

/-- Payloads that agree on the bytes below `len` unpack alike: the other bytes are ignored. -/
theorem unpackBytes_congr {len : Nat} {p q : List Word} (hp : len ≤ 4 * p.length) (hq : len ≤ 4 * q.length)
    (h : ∀ j, j < len →
      (q.getD (j / 4) 0).extractLsb' (8 * (j % 4)) 8 = (p.getD (j / 4) 0).extractLsb' (8 * (j % 4)) 8) :
    unpackBytes len q = unpackBytes len p := by
  apply List.ext_getElem?
  intro j
  by_cases hj : j < len
  · rw [unpackBytes_getElem? hq j hj, unpackBytes_getElem? hp j hj, h j hj]
  · rw [List.getElem?_eq_none (by rw [unpackBytes_length len q hq]; omega),
      List.getElem?_eq_none (by rw [unpackBytes_length len p hp]; omega)]

/-- PUT's header as a number: OP = 3 and LEN at bits 15:8 (R71, R75). -/
theorem put_header_eq (d : List Byte) (hd : d.length ≤ maxPutLen) :
    (Instr.put d).header = BitVec.ofNat 32 (3 + 256 * d.length) := by
  simp only [maxPutLen] at hd
  apply BitVec.eq_of_toNat_eq
  simp only [Instr.header, headerWord_toNat, BitVec.toNat_ofNat, BitVec.ofNat_eq_ofNat]
  omega

/-- A PUT header and the words it frames decode to the bytes unpacked, whatever stands behind the last one. -/
theorem decode_put {len : Nat} {p : List Word} (rest : List Word) (hl : len ≤ 255) (hp : p.length = (len + 3) / 4) :
    decode (BitVec.ofNat 32 (3 + 256 * len) :: (p ++ rest)) = .instr (.put (unpackBytes len p)) rest := by
  have hlen : (unpackBytes len p).length = len := unpackBytes_length len p (by omega)
  have hd : (unpackBytes len p).length ≤ maxPutLen := hlen.symm ▸ hl
  have hh := put_header_eq _ hd
  have hf := decodeHeader_put _ hd
  have hw := payloadLen_header (.put (unpackBytes len p)) (decide_eq_true hd)
  rw [hlen] at hh hf
  rw [Instr.payload, packBytes_length, hlen] at hw
  rw [← hh, decode_frame _ p rest (hp.trans hw.symm), hf]
  rfl

/-! ### INIT's operand on the stream (R78) -/

/-- The words of an INIT decode to it. -/
theorem decode_encode_init (op : SeedOperand) (rest : List Word) :
    decode (encode (.init op) ++ rest) = .instr (.init op) rest := by
  have hw := payloadLen_header (.init op) rfl
  rw [encode, List.cons_append, decode_frame _ _ rest hw.symm, decodeHeader_init]
  simp only [readOperands, Instr.payload, readSeed_payload]

/-- INIT's header as a number: OP = 1, VAR at bits 5:4 and SM at bit 6 (R71, R78). -/
theorem init_header_eq (op : SeedOperand) :
    (Instr.init op).header = BitVec.ofNat 32 (1 + 16 * op.variant.code.toNat + 64 * op.mode.code.toNat) := by
  have hv := op.variant.code.isLt
  have hm := op.mode.code.isLt
  apply BitVec.eq_of_toNat_eq
  simp only [Instr.header, headerWord_toNat, BitVec.toNat_ofNat, BitVec.ofNat_eq_ofNat]
  omega

/-- `p1 << 32 | p0` (R80). -/
theorem joinWords_eq_shift_or (p0 p1 : Word) :
    joinWords p0 p1 = p1.zeroExtend 64 <<< 32 ||| p0.zeroExtend 64 := by
  rw [joinWords, BitVec.append_def, BitVec.shiftLeftZeroExtend_eq, BitVec.setWidth'_eq]

/-! ### The OP a decoded command keeps (R72) -/

/-- The OP of each command form. -/
def CommandForm.op : CommandForm → BitVec 4
  | .init _ _ => 1
  | .start => 2
  | .put _ => 3
  | .finish => 4
  | .fmix32 => 5
  | .fmix64 => 6

@[simp] theorem hdrOp_header_readOperands (f : CommandForm) (p : List Word) :
    hdrOp (readOperands f p).header = f.op := by
  cases f <;> exact hdrOp_headerWord ..

/-- The form a legal header decodes to has the header's OP (R85). -/
theorem decodeHeader_op {h : Word} {f : CommandForm} (hd : decodeHeader h = .ok f) : f.op = hdrOp h := by
  apply BitVec.eq_of_toNat_eq
  simp only [decodeHeader] at hd
  split_ifs at hd with hop
  split at hd
  case h_1 ho =>
    split at hd <;> cases hd
    exact ho.symm
  case h_6 h1 h2 h3 h4 h5 =>
    cases hd
    have h6 : (hdrOp h).toNat = 6 := by
      simp only [imp_false] at h1 h2 h3 h4 h5
      omega
    exact h6.symm
  all_goals
    rename_i ho
    cases hd
    exact ho.symm

end Sys2Proof

namespace Sys2Proof.Machine

/-! ### The state an INIT steps to (R78, R191) -/

theorem step_init {s : State} (hr : s.resetLine = false) (hf : s.fault = false) {op : SeedOperand} {rest : List Word}
    (hi : s.input =
      BitVec.ofNat 32 (1 + 16 * op.variant.code.toNat + 64 * op.mode.code.toNat) :: (op.payload ++ rest)) :
    ∃ t, step s = .next t ∧ t.variant = op.variant ∧ t.seed = seedView op := by
  have hd : decode s.input = .instr (.init op) rest := by
    rw [hi, ← init_header_eq]
    exact decode_encode_init op rest
  have hs := step_instr hr hf hd
  rw [exec_eq_perform, perform_ok (s := { s with input := rest }) hf rfl] at hs
  exact ⟨_, hs, rfl, rfl⟩

theorem mur32View_zeroExtend (w : Word) : mur32View (w.zeroExtend 128) = w := by
  ext i hi
  simp [mur32View, BitVec.getLsbD_eq_getElem hi]
  omega

/-! ### Every response (R81, R82) -/

/-- The bit fields of a status word (R81). -/
theorem statusWord_fields (f : Bool) (c : Cause) (opx : BitVec 4) :
    (statusWord f c opx).toNat % 2 = f.toNat ∧ (statusWord f c opx).toNat / 2 % 8 = 0 ∧
      (statusWord f c opx).toNat / 16 % 16 = c.code.toNat ∧ (statusWord f c opx).toNat / 256 % 16 = opx.toNat ∧
      (statusWord f c opx).toNat / 4096 = 0 := by
  have hf := f.toNat_lt
  have hc := c.code.isLt
  have ho := opx.isLt
  rw [statusWord_toNat]
  omega

theorem digestWords_length (v : Variant) (d : Reg128) : (digestWords v d).length = digestWidth v / 4 := by
  simp [digestWords]

/-- A body that ends in a state returns as many data words as its OP and VARIANT give (R82). -/
theorem bodyOf_dataWordCount {i : Instr} {s t : State} {ws : List Word} (h : bodyOf i s = .ok (t, ws)) :
    ws.length = dataWordCount (hdrOp i.header).toNat s.variant := by
  cases i with
  | init op => cases h; simp [Instr.header, dataWordCount]
  | start =>
    simp only [bodyOf, startBody] at h
    split at h <;> cases h <;> simp [Instr.header, dataWordCount]
  | put d =>
    simp only [bodyOf, putBody] at h
    split at h
    · cases h
    · cases h
    · split at h <;> cases h
      simp [Instr.header, dataWordCount]
  | finish =>
    obtain ⟨_, _, rfl⟩ := finishBody_frame h
    simp [Instr.header, dataWordCount, digestWords_length]
  | fmix32 p0 => cases h; simp [Instr.header, dataWordCount]
  | fmix64 p0 p1 => cases h; simp [Instr.header, dataWordCount]

/-- The response of a step but reset: the status word of the next state's FAULT and of the header's OP, then the data. -/
theorem step_response {s t : State} (hr : s.resetLine = false) (hs : step s = .next t) :
    ∃ h ws data, s.input = h :: ws ∧
      t.output = s.output ++ statusWord t.fault (if t.fault then t.cause else .none) (hdrOp h) :: data ∧
      data.length = if t.fault then 0 else dataWordCount (hdrOp h).toNat s.variant := by
  obtain ⟨hr', _⟩ | ⟨_, hf, ⟨r, h, rest, hd, rfl⟩ | ⟨i, rest, hd, he⟩⟩ := step_next hs
  · simp [hr] at hr'
  · obtain ⟨p, hi, _⟩ := decode_reject_inv hd
    exact ⟨h, p, [], hi, rfl, rfl⟩
  · obtain ⟨h, p, f, hi, _, _, hh, rfl⟩ := decode_instr_inv hd
    rw [exec_eq_perform] at he
    have ho := (hdrOp_header_readOperands f (p.take (payloadLen h))).trans (decodeHeader_op hh)
    obtain ⟨_, ⟨c, _, rfl⟩ | ⟨u, ws, hb, rfl⟩⟩ := perform_next he
    · exact ⟨h, p, [], hi, by simp [ho], rfl⟩
    · have hu := bodyOf_sameInterface hb
      have hn := bodyOf_dataWordCount hb
      rw [ho] at hn
      exact ⟨h, p, ws, hi, by simp [hu.fault, hu.output, hf, ho], by simp [hu.fault, hf, hn]⟩

/-! ### The obligations -/

/-- Settles O5: the table from the header's fields, row by row; a rejected header takes its fault, its frame consumed. -/
theorem payloadLengthTable : Obligations.PayloadLengthTable := by
  unfold Obligations.PayloadLengthTable
  constructor
  · intro h
    have sm0 (hs : h.toNat / 64 % 2 = 0) := smOf_of_zero ((hdrSm_toNat h).trans hs)
    have sm1 (hs : h.toNat / 64 % 2 = 1) := smOf_of_one ((hdrSm_toNat h).trans hs)
    refine ⟨fun ho hv => payloadLen_init ho (varOf_hdrVar hv), fun ho hv hs => ?_, fun ho hv hs => ?_, fun ho hv hs => ?_,
      fun ho hv hs => ?_, fun ho hv => payloadLen_init_reserved ho (varOf_hdrVar hv), fun ho => ?_, fun ho => ?_,
      fun ho => ?_, payloadLen_fmix32, payloadLen_fmix64, fun ho => ?_⟩
    · rw [payloadLen_init ho (varOf_hdrVar hv), sm0 hs, initPayloadLen]
    · rw [payloadLen_init ho (varOf_hdrVar hv), sm1 hs, initPayloadLen]
    · rw [payloadLen_init ho (varOf_hdrVar hv), sm0 hs, initPayloadLen]
    · rw [payloadLen_init ho (varOf_hdrVar hv), sm1 hs, initPayloadLen]
    · exact payloadLen_eq_zero (by omega) (by omega) (by omega) (by omega)
    · rw [payloadLen_put ho]; omega
    · exact payloadLen_eq_zero (by omega) (by omega) (by omega) (by omega)
    · exact payloadLen_eq_zero (by omega) (by omega) (by omega) (by omega)
  · intro s h ws r hr hf hi hp hd
    have hrej : decode s.input = .reject r h (ws.drop (payloadLen h)) := hi ▸ decode_reject hp hd
    exact ⟨_, step_reject hr hf hrej, rfl, rfl, rfl, step_stopped hr rfl⟩

/-- Settles O7: the payload's bytes by position, and only those below LEN. -/
theorem putPayloadPacking : Obligations.PutPayloadPacking := by
  unfold Obligations.PutPayloadPacking
  intro len p rest hl hp
  have hlp : len ≤ 4 * p.length := by omega
  refine ⟨⟨_, decode_put rest hl hp, unpackBytes_length len p hlp, unpackBytes_getElem? hlp⟩, ?_⟩
  intro q hq hagree
  rw [decode_put rest hl hp, decode_put rest hl (hq.trans hp), unpackBytes_congr hlp (hq ▸ hlp) hagree]

/-- Settles O8: each row of the table is an INIT operand's encoding, and the step writes that operand's seeds. -/
theorem initSeedTable : Obligations.InitSeedTable := by
  unfold Obligations.InitSeedTable
  intro s p0 p1 p2 p3 rest hr hf
  simp only [← joinWords_eq_shift_or]
  refine ⟨?_, fun hi => ?_, fun hi => ?_, fun hi => ?_, fun hi => ?_⟩
  · rintro (hi | hi)
    · obtain ⟨t, hs, hv, hseed⟩ := step_init hr hf (op := .mur32 .broadcast p0) hi
      exact ⟨t, hs, hv, hseed ▸ mur32View_zeroExtend p0⟩
    · obtain ⟨t, hs, hv, hseed⟩ := step_init hr hf (op := .mur32 .perLane p0) hi
      exact ⟨t, hs, hv, hseed ▸ mur32View_zeroExtend p0⟩
  · obtain ⟨t, hs, hv, hseed⟩ := step_init hr hf (op := .x86Broadcast p0) hi
    exact ⟨t, hs, hv, hseed ▸ x86View_pack _⟩
  · obtain ⟨t, hs, hv, hseed⟩ := step_init hr hf (op := .x86PerLane p0 p1 p2 p3) hi
    exact ⟨t, hs, hv, hseed ▸ x86View_pack _⟩
  · obtain ⟨t, hs, hv, hseed⟩ := step_init hr hf (op := .x64Broadcast (joinWords p0 p1)) (rest := rest)
      (by rw [hi, SeedOperand.payload]; simp only [lowWord_join, highWord_join]; rfl)
    exact ⟨t, hs, hv, hseed ▸ x64View_pack _⟩
  · obtain ⟨t, hs, hv, hseed⟩ := step_init hr hf (op := .x64PerLane (joinWords p0 p1) (joinWords p2 p3)) (rest := rest)
      (by rw [hi, SeedOperand.payload]; simp only [lowWord_join, highWord_join]; rfl)
    exact ⟨t, hs, hv, hseed ▸ x64View_pack _⟩

/-- Settles O22: the response of a step, its status word read field by field. -/
theorem responseFormat : Obligations.ResponseFormat := by
  unfold Obligations.ResponseFormat
  intro s t hr hs
  obtain ⟨h, ws, data, hi, hout, hlen⟩ := step_response hr hs
  obtain ⟨hF, hzero, hC, hop, hhigh⟩ := statusWord_fields t.fault (if t.fault then t.cause else .none) (hdrOp h)
  rw [hdrOp_toNat] at hop hlen
  refine ⟨h, ws, _, data, hi, hout, hF.trans ?_, hzero, hC.trans ?_, hop, hhigh, hlen⟩
  · cases t.fault <;> rfl
  · cases t.fault <;> rfl

end Sys2Proof.Machine

/-! SUPPORT. The primitives (40_primitives.md): rotation bit by bit (R100), the primitives in arithmetic modulo `2 ^ W` (R101
to R104), headers with a bit their OP reserves (30_encoding.md R76), and FMIX32 and FMIX64 performed (R106, R107). -/

namespace Sys2Proof.Machine

/-! ### Rotation (R100) -/

/-- Rotation by any amount from 0 to the width is the library's rotation, which takes the amount modulo the width. -/
theorem rotl_eq_rotateLeft {w : Nat} (x : BitVec w) (r : Fin (w + 1)) : rotl x r = x.rotateLeft r.val := by
  by_cases hr : r.val = 0 ∨ r.val = w
  · have hmod : r.val % w = 0 := by
      obtain h | h := hr <;> simp [h]
    rw [rotl, if_pos hr, BitVec.rotateLeft_def, hmod, Nat.sub_zero, BitVec.shiftLeft_zero,
      BitVec.ushiftRight_eq_zero (Nat.le_refl w), BitVec.or_zero]
  · exact rotl_inside x r (by omega) (by omega)

/-- Bit `i` of a rotated word is bit `(i - r) mod w` of the operand. -/
theorem getLsbD_rotl {w : Nat} (x : BitVec w) (r : Fin (w + 1)) {i : Nat} (hi : i < w) :
    (rotl x r).getLsbD i = x.getLsbD ((i + w - r.val) % w) := by
  have hr : r.val < w ∨ r.val = w := by omega
  obtain hr | hr := hr
  · rw [rotl_eq_rotateLeft, BitVec.getLsbD_rotateLeft, Nat.mod_eq_of_lt hr]
    by_cases hir : i < r.val
    · rw [decide_eq_true hir, cond_true]
      rw [Nat.mod_eq_of_lt (by omega), Nat.add_comm i w, Nat.sub_add_comm hr.le]
    · rw [decide_eq_false hir, cond_false, decide_eq_true hi, Bool.true_and, Nat.sub_add_comm (by omega),
        Nat.add_mod_right, Nat.mod_eq_of_lt (by omega)]
  · rw [rotl, if_pos (.inr hr), hr, Nat.add_sub_cancel, Nat.mod_eq_of_lt hi]

/-! ### The primitives as numbers (R101 to R104) -/

/-- An xor with a right shift of itself, as a number. -/
theorem toNat_xor_ushiftRight {w : Nat} (x : BitVec w) (r : Nat) :
    (x ^^^ x >>> r).toNat = x.toNat ^^^ x.toNat / 2 ^ r := by
  rw [BitVec.toNat_xor, BitVec.toNat_ushiftRight, Nat.shiftRight_eq_div_pow]

/-- A product with a literal, as a number: the product wraps once, whatever the literal's size. -/
theorem toNat_mul_ofNat {w : Nat} (x : BitVec w) (n : Nat) : (x * BitVec.ofNat w n).toNat = x.toNat * n % 2 ^ w := by
  rw [BitVec.toNat_mul, BitVec.toNat_ofNat, Nat.mul_mod_mod]

theorem shuffle_toNat {w : Nat} (k c1 c2 : BitVec w) (r : Fin (w + 1)) :
    (shuffle k c1 c2 r).toNat = (rotl (BitVec.ofNat w (k.toNat * c1.toNat)) r).toNat * c2.toNat % 2 ^ w := by
  rw [shuffle, BitVec.toNat_mul, BitVec.ofNat_mul, BitVec.ofNat_toNat, BitVec.ofNat_toNat,
    BitVec.setWidth_eq, BitVec.setWidth_eq]

/-- The last three statements of update wrap once: reducing modulo `2 ^ w` between them changes nothing. -/
theorem update_toNat {w : Nat} (h k m c1 c2 n : BitVec w) (r1 r2 : Fin (w + 1)) :
    (update h k m c1 c2 r1 r2 n).toNat =
      (((rotl (h ^^^ shuffle k c1 c2 r1) r2).toNat + m.toNat) * 5 + n.toNat) % 2 ^ w := by
  simp only [update, BitVec.toNat_add, BitVec.ofNat_eq_ofNat, toNat_mul_ofNat, Nat.mod_mul_mod, Nat.mod_add_mod]

theorem fmix32_toNat (h : Word) :
    let a := h.toNat ^^^ h.toNat / 2 ^ 16
    let b := a * 0x85ebca6b % 2 ^ 32
    let c := b ^^^ b / 2 ^ 13
    let d := c * 0xc2b2ae35 % 2 ^ 32
    (fmix32 h).toNat = d ^^^ d / 2 ^ 16 := by
  simp only [fmix32, toNat_xor_ushiftRight, BitVec.ofNat_eq_ofNat, toNat_mul_ofNat]

theorem fmix64_toNat (k : Word64) :
    let a := k.toNat ^^^ k.toNat / 2 ^ 33
    let b := a * 0xff51afd7ed558ccd % 2 ^ 64
    let c := b ^^^ b / 2 ^ 33
    let d := c * 0xc4ceb9fe1a85ec53 % 2 ^ 64
    (fmix64 k).toNat = d ^^^ d / 2 ^ 33 := by
  simp only [fmix64, toNat_xor_ushiftRight, BitVec.ofNat_eq_ofNat, toNat_mul_ofNat]

theorem fmix32_zero : fmix32 0 = 0 := by decide
theorem fmix64_zero : fmix64 0 = 0 := by decide

end Sys2Proof.Machine

namespace Sys2Proof

/-! ### Headers with a bit their OP reserves (R76) -/

/-- START, FINISH, FMIX32 and FMIX64 use no bit above OP: a header of theirs with another bit set is rejected. -/
theorem decodeHeader_reserved {h : Word} (hlo : 2 ≤ h.toNat % 16) (hne : h.toNat % 16 ≠ 3) (hhi : h.toNat % 16 ≤ 6)
    (hb : h.toNat / 16 ≠ 0) : decodeHeader h = .error .reservedField := by
  have hop : ¬((hdrOp h).toNat = 0 ∨ 7 ≤ (hdrOp h).toNat) := by rw [hdrOp_toNat]; omega
  have hput : (hdrOp h).toNat ≠ 3 := by rwa [hdrOp_toNat]
  have hinit : (hdrOp h).toNat ≠ 1 := by rw [hdrOp_toNat]; omega
  have hset : (hdrHigh h ≠ 0 ∨ hdrBit7 h ≠ 0) ∨ hdrLen h ≠ 0 ∨ hdrVar h ≠ 0 ∨ hdrSm h ≠ 0 := by
    simp only [ne_eq, BitVec.toNat_eq, hdrHigh_toNat, hdrBit7_toNat, hdrLen_toNat, hdrVar_toNat, hdrSm_toNat,
      BitVec.ofNat_eq_ofNat, BitVec.toNat_ofNat, Nat.zero_mod]
    omega
  rw [decodeHeader, if_neg hop]
  obtain hfixed | hlen | hvar := hset
  · rw [if_pos hfixed]
  · rw [if_pos (And.intro hput hlen), ite_self]
  · rw [if_pos (And.intro hinit hvar), ite_self, ite_self]

end Sys2Proof

namespace Sys2Proof.Machine

/-- A header that the decoder rejects for a reserved field takes that fault once its frame has arrived. -/
theorem faultsReserved_of_decodeHeader {op : Nat} {bad : Word → Prop}
    (hd : ∀ h : Word, h.toNat % 16 = op → bad h → decodeHeader h = .error .reservedField) : FaultsReserved op bad := by
  unfold FaultsReserved
  intro s h ws hr hf hi hp ho hb
  have hrej : decode s.input = .reject .reservedField h (ws.drop (payloadLen h)) := by
    rw [hi]
    exact decode_reject hp (hd h ho hb)
  rw [step_reject hr hf hrej, rejectCause]

/-- START, FINISH, FMIX32 and FMIX64: every bit above OP is reserved. -/
theorem faultsReserved_above_op {op : Nat} (hlo : 2 ≤ op) (hne : op ≠ 3) (hhi : op ≤ 6) :
    FaultsReserved op fun h => h.toNat / 16 ≠ 0 := by
  refine faultsReserved_of_decodeHeader fun h ho hb => ?_
  subst ho
  exact decodeHeader_reserved hlo hne hhi hb

/-! ### FMIX32 and FMIX64 performed (R106, R107) -/

theorem exec_stopped {s : State} (hf : s.fault = true) (i : Instr) : exec i s = .fault .stopped := by
  rw [exec_eq_perform, perform_stopped hf]

theorem exec_fmix32 {s : State} (hf : s.fault = false) (p0 : Word) :
    exec (.fmix32 p0) s = .next (respond [0x00000500, fmix32 p0] s) := by
  rw [exec_eq_perform, perform_ok hf rfl, Instr.header, hdrOp_headerWord]
  rfl

theorem exec_fmix64 {s : State} (hf : s.fault = false) (p0 p1 : Word) :
    exec (.fmix64 p0 p1) s = .next (respond
      [0x00000600, lowWord (fmix64 (joinWords p0 p1)), highWord (fmix64 (joinWords p0 p1))] s) := by
  rw [exec_eq_perform, perform_ok hf rfl, Instr.header, hdrOp_headerWord]
  rfl

/-! ### The obligations -/

/-- Settles O34: the three cases of the rule, the bits from the library's rotation. -/
theorem rotlRotatesLeft : Obligations.RotlRotatesLeft := by
  unfold Obligations.RotlRotatesLeft
  intro w x r
  exact ⟨fun h => if_pos h, fun h0 hw => if_neg (by omega), fun _ hi => getLsbD_rotl x r hi⟩

/-- Settles O27: FMIX32's body always ends in the state it began with; any bit above OP is reserved. -/
theorem fmix32Answers : Obligations.Fmix32Answers := by
  unfold Obligations.Fmix32Answers
  exact ⟨fun _ => rfl, fun _ p0 hf => exec_fmix32 hf p0, fun _ _ hf => exec_stopped hf _,
    faultsReserved_above_op (by decide) (by decide) (by decide), fmix32_zero, by decide, by decide⟩

/-- Settles O28: as for FMIX32, the operand and the result low word first. -/
theorem fmix64Answers : Obligations.Fmix64Answers := by
  unfold Obligations.Fmix64Answers
  simp only [← joinWords_eq_shift_or]
  exact ⟨fun _ _ => rfl, fun _ p0 p1 hf => exec_fmix64 hf p0 p1, fun _ _ _ hf => exec_stopped hf _,
    faultsReserved_above_op (by decide) (by decide) (by decide), fmix64_zero, by decide, by decide⟩

/-- Settles O35: each primitive as a number, its statements in order. -/
theorem primitivesWrapModulo : Obligations.PrimitivesWrapModulo := by
  unfold Obligations.PrimitivesWrapModulo
  exact ⟨fun _ => shuffle_toNat, fun _ => update_toNat, fmix32_toNat, fmix64_toNat, fmix32_zero, fmix64_zero⟩

end Sys2Proof.Machine

/-! SUPPORT. The MUR32 mixer (41_mixer32.md): little-endian values as concatenations of their bytes (R10), the lane functions
with MUR32's constants (R131, R133, R134), and what each mixer operation answers on MUR32 (R133 to R135). -/

namespace Sys2Proof

/-! ### Little-endian values as concatenations (R10) -/

/-- One more byte at the low end of a little-endian value. -/
theorem toNat_append_byte {n : Nat} {x : BitVec n} {bs : List Byte} (h : x.toNat = leNat bs) (b : Byte) :
    (x ++ b).toNat = leNat (b :: bs) := by
  rw [toNat_append_add, h, leNat]
  omega

theorem toNat_eq_leNat_singleton (b : Byte) : b.toNat = leNat [b] := rfl

/-- Widening with zeros is `le` of fewer bytes: the absent bytes are zero. -/
theorem le_eq_setWidth {n : Nat} {x : BitVec n} {bs : List Byte} (h : x.toNat = leNat bs) (w : Nat) :
    le w bs = x.setWidth w := by
  rw [le, ← h, BitVec.ofNat_toNat]

theorem le_byte (b0 : Byte) : le 32 [b0] = b0.zeroExtend 32 :=
  le_eq_setWidth (toNat_eq_leNat_singleton b0) 32

theorem le_two_bytes (b0 b1 : Byte) : le 32 [b0, b1] = (b1 ++ b0 : BitVec 16).zeroExtend 32 :=
  le_eq_setWidth (toNat_append_byte (toNat_eq_leNat_singleton b1) b0) 32

theorem le_three_bytes (b0 b1 b2 : Byte) : le 32 [b0, b1, b2] = (b2 ++ b1 ++ b0 : BitVec 24).zeroExtend 32 :=
  le_eq_setWidth (toNat_append_byte (toNat_append_byte (toNat_eq_leNat_singleton b2) b1) b0) 32

theorem le_four_bytes (b0 b1 b2 b3 : Byte) : le 32 [b0, b1, b2, b3] = (b3 ++ b2 ++ b1 ++ b0 : Word) :=
  (le_eq_setWidth
    (toNat_append_byte (toNat_append_byte (toNat_append_byte (toNat_eq_leNat_singleton b3) b2) b1) b0) 32).trans
    (BitVec.setWidth_eq _)

end Sys2Proof

namespace Sys2Proof.Machine

/-! ### The lane functions with MUR32's constants -/

theorem shuffle_eq_rotateLeft {w : Nat} (k c1 c2 : BitVec w) (r1 : Fin (w + 1)) :
    shuffle k c1 c2 r1 = (k * c1).rotateLeft r1.val * c2 := by
  rw [shuffle, rotl_eq_rotateLeft]

/-- The block update of a lane with mixWith 0. -/
theorem laneBlock_zero {w : Nat} (p : LaneParams w) (h k : BitVec w) :
    laneBlock p h k 0 = (h ^^^ (k * p.c1).rotateLeft p.r1.val * p.c2).rotateLeft p.r2.val * 5 + p.n := by
  simp only [laneBlock, update, shuffle_eq_rotateLeft, rotl_eq_rotateLeft, BitVec.ofNat_eq_ofNat, BitVec.add_zero]

theorem laneTail_eq_rotateLeft {w : Nat} (p : LaneParams w) (h k : BitVec w) :
    laneTail p h k = h ^^^ (k * p.c1).rotateLeft p.r1.val * p.c2 := by
  rw [laneTail, shuffle_eq_rotateLeft]

/-- MUR32's block update on a whole block (R133). -/
theorem mur32Block_four_bytes (b0 b1 b2 b3 : Byte) (h1 : Word) :
    mur32Block [b0, b1, b2, b3] h1 =
      (h1 ^^^ ((b3 ++ b2 ++ b1 ++ b0 : Word) * 0xcc9e2d51).rotateLeft 15 * 0x1b873593).rotateLeft 13 * 5 + 0xe6546b64 := by
  rw [← le_four_bytes]
  exact laneBlock_zero mur32Lane h1 _

/-- MUR32's tail fold (R134). -/
theorem mur32Tail_eq (t : List Byte) (h1 : Word) :
    mur32Tail t h1 = h1 ^^^ (le 32 t * 0xcc9e2d51).rotateLeft 15 * 0x1b873593 :=
  laneTail_eq_rotateLeft mur32Lane h1 _

/-- An empty tail leaves `h1` unchanged: the shuffle of 0 is 0 (R134). -/
theorem mur32Tail_nil (h1 : Word) : mur32Tail [] h1 = h1 := by
  have hshuffle : (le 32 [] * 0xcc9e2d51).rotateLeft 15 * 0x1b873593 = 0 := by decide
  rw [mur32Tail_eq, hshuffle, BitVec.ofNat_eq_ofNat, BitVec.xor_zero]

/-! ### The mixer operations on MUR32 (R133 to R135) -/

section operations
variable {s : State} {b : List Byte}

theorem mixTail_notAccepted (h : s.mixphase ≠ .blocks) (b : List Byte) : mixTail b s = .error .tailNotAccepted := by
  obtain ⟨hb, _⟩ | ⟨hb, _⟩ | ⟨_, he⟩ := mixTail_cases b s
  · exact absurd hb h
  · exact absurd hb h
  · exact he

theorem mixTail_tooLong (h : s.mixphase = .blocks) (hl : s.bw ≤ b.length) : mixTail b s = .error .tailTooLong := by
  obtain ⟨_, hlt, _⟩ | ⟨_, _, he⟩ | ⟨hb, _⟩ := mixTail_cases b s
  · exact absurd hlt (Nat.not_lt.mpr hl)
  · exact he
  · exact absurd h hb

theorem mixFinalize_error (h : s.mixphase = .finalized) : mixFinalize s = .error .finalizeNotAccepted := by
  obtain ⟨hb, _⟩ | ⟨_, he⟩ := mixFinalize_cases s
  · exact absurd h hb
  · exact he

theorem bw_mur32 (hv : s.variant = .mur32) : s.bw = 4 := by rw [State.bw, hv, blockWidth]

theorem mixBlock_mur32 (hv : s.variant = .mur32) (hm : s.mixphase = .blocks) (b : List Byte) :
    ∃ t, mixBlock b s = .ok t ∧ t.count = s.count + 4 ∧ t.mixphase = .blocks ∧
      mur32View t.acc = mur32Block b (mur32View s.acc) := by
  refine ⟨_, mixBlock_ok hm b, ?_, hm, ?_⟩
  · rw [bw_mur32 hv]
    rfl
  · rw [hv]
    exact mur32View_write _ _

theorem mixTail_mur32 (hv : s.variant = .mur32) (hm : s.mixphase = .blocks) (hl : b.length < 4) :
    ∃ t, mixTail b s = .ok t ∧ t.count = s.count + BitVec.ofNat 64 b.length ∧ t.mixphase = .tailTaken ∧
      mur32View t.acc = mur32Tail b (mur32View s.acc) := by
  refine ⟨_, mixTail_ok hm (by rwa [bw_mur32 hv]), rfl, rfl, ?_⟩
  rw [hv]
  exact mur32View_write _ _

theorem mixFinalize_mur32 (hv : s.variant = .mur32) (hm : s.mixphase ≠ .finalized) :
    ∃ t, mixFinalize s = .ok t ∧ t.mixphase = .finalized ∧
      mur32View t.acc = mur32Finalize s.count (mur32View s.acc) := by
  refine ⟨_, mixFinalize_ok hm, rfl, ?_⟩
  rw [hv]
  exact mur32View_write _ _

end operations

/-- The count enters by its low 32 bits (R135, D8). -/
theorem mur32Finalize_eq (count : BitVec 64) (h1 : Word) :
    mur32Finalize count h1 = fmix32 (h1 ^^^ count.setWidth 32) := by
  rw [mur32Finalize, BitVec.setWidth_eq_extractLsb' (by decide)]

/-! ### The obligation -/

/-- Settles O39: each operation's answer on MUR32, with the lane function's formula for the bytes given. -/
theorem mur32MixerArithmetic : Obligations.Mur32MixerArithmetic := by
  unfold Obligations.Mur32MixerArithmetic
  refine ⟨fun s b0 b1 b2 b3 hv hm => ?block, fun s b _ hm => ⟨mixBlock_error hm b, mixTail_notAccepted hm b⟩,
    fun s b hv hm hl => mixTail_tooLong hm (by rwa [bw_mur32 hv]), fun s b0 b1 b2 hv hm => ?tail,
    fun s hv => ⟨fun hm => ?finalize, mixFinalize_error⟩⟩
  case block =>
    rw [← mur32Block_four_bytes]
    exact mixBlock_mur32 hv hm _
  case tail =>
    rw [← le_byte, ← le_two_bytes, ← le_three_bytes, ← mur32Tail_eq, ← mur32Tail_eq, ← mur32Tail_eq]
    refine ⟨?_, mixTail_mur32 hv hm (by simp), mixTail_mur32 hv hm (by simp), mixTail_mur32 hv hm (by simp)⟩
    obtain ⟨t, ht, hc, hp, ha⟩ := mixTail_mur32 (b := []) hv hm (by decide)
    exact ⟨t, ht, hc.trans (BitVec.add_zero _), hp, ha.trans (mur32Tail_nil _)⟩
  case finalize =>
    rw [← mur32Finalize_eq]
    exact mixFinalize_mur32 hv hm

end Sys2Proof.Machine

/-! SUPPORT. Finalization of the 128-bit mixers (42_mixer128_x86.md R154, 43_mixer128_x64.md R174): the cross-addition
rounds and the lane functions written out, and what MIX_FINALIZE answers on each variant. -/

namespace Sys2Proof.Machine

/-! ### The cross-addition rounds -/

/-- R154's round: h2, h3 and h4 add the h1 that already holds the three additions before them. -/
theorem x86Round_eq (l : X86Lanes) :
    x86Round l =
      { h1 := l.h1 + l.h2 + l.h3 + l.h4
        h2 := l.h2 + (l.h1 + l.h2 + l.h3 + l.h4)
        h3 := l.h3 + (l.h1 + l.h2 + l.h3 + l.h4)
        h4 := l.h4 + (l.h1 + l.h2 + l.h3 + l.h4) } := rfl

/-- R174's round: h2 adds the new h1. -/
theorem x64Round_eq (l : X64Lanes) : x64Round l = { h1 := l.h1 + l.h2, h2 := l.h2 + (l.h1 + l.h2) } := rfl

/-! ### The lane functions: `a` the lanes that enter fmix and the addends of the first round, `b` those that leave it -/

/-- The count enters by its low 32 bits (R154). -/
theorem x86Finalize_eq (count : BitVec 64) (l : X86Lanes) :
    let a2 := l.h2 ^^^ count.setWidth 32
    let a3 := l.h3 ^^^ count.setWidth 32
    let a4 := l.h4 ^^^ count.setWidth 32
    let a1 := (l.h1 ^^^ count.setWidth 32) + a2 + a3 + a4
    let b1 := fmix32 a1
    let b2 := fmix32 (a2 + a1)
    let b3 := fmix32 (a3 + a1)
    let b4 := fmix32 (a4 + a1)
    x86Finalize count l =
      { h1 := b1 + b2 + b3 + b4
        h2 := b2 + (b1 + b2 + b3 + b4)
        h3 := b3 + (b1 + b2 + b3 + b4)
        h4 := b4 + (b1 + b2 + b3 + b4) } := by
  have hcount : count.setWidth 32 = count.extractLsb' 0 32 := BitVec.setWidth_eq_extractLsb' (by decide)
  simp only [x86Finalize, x86Round_eq, hcount]

/-- The whole count enters (R174). -/
theorem x64Finalize_eq (count : BitVec 64) (l : X64Lanes) :
    let a2 := l.h2 ^^^ count
    let a1 := (l.h1 ^^^ count) + a2
    let b1 := fmix64 a1
    let b2 := fmix64 (a2 + a1)
    x64Finalize count l = { h1 := b1 + b2, h2 := b2 + (b1 + b2) } := by
  simp only [x64Finalize, x64Round_eq]

/-! ### MIX_FINALIZE on the 128-bit variants -/

section finalize
variable {s : State}

theorem mixFinalize_x86 (hv : s.variant = .x86) (hm : s.mixphase ≠ .finalized) :
    ∃ t, mixFinalize s = .ok t ∧ t.mixphase = .finalized ∧
      x86View t.acc = x86Finalize s.count (x86View s.acc) := by
  refine ⟨_, mixFinalize_ok hm, rfl, ?_⟩
  rw [hv]
  exact x86View_pack _

theorem mixFinalize_x64 (hv : s.variant = .x64) (hm : s.mixphase ≠ .finalized) :
    ∃ t, mixFinalize s = .ok t ∧ t.mixphase = .finalized ∧
      x64View t.acc = x64Finalize s.count (x64View s.acc) := by
  refine ⟨_, mixFinalize_ok hm, rfl, ?_⟩
  rw [hv]
  exact x64View_pack _

end finalize

/-! ### The obligation -/

/-- Settles O43: MIX_FINALIZE's answer on each 128-bit variant, its lane function written out statement by statement. -/
theorem wideFinalizeArithmetic : Obligations.WideFinalizeArithmetic := by
  unfold Obligations.WideFinalizeArithmetic
  refine ⟨fun s hv hm => ?x86, fun s hv hm => ?x64, fun s _ hm => mixFinalize_error hm⟩
  case x86 =>
    obtain ⟨t, ht, hp, hacc⟩ := mixFinalize_x86 hv hm
    exact ⟨t, _, _, _, _, _, _, _, _, ht, hp, rfl, rfl, rfl, rfl, rfl, rfl, rfl, rfl,
      hacc.trans (x86Finalize_eq s.count (x86View s.acc))⟩
  case x64 =>
    obtain ⟨t, ht, hp, hacc⟩ := mixFinalize_x64 hv hm
    exact ⟨t, _, _, _, _, ht, hp, rfl, rfl, rfl, rfl, hacc.trans (x64Finalize_eq s.count (x64View s.acc))⟩

end Sys2Proof.Machine

/-! SUPPORT. The blocks of the two-lane mixer (43_mixer128_x64.md R172): a lane's block update with any mixWith, the two
little-endian words of a block, and what MIX_BLOCK answers on X64_128. -/

namespace Sys2Proof.Machine

/-! ### The lane update -/

/-- The block update of a lane: mixWith is added before the multiplication by 5, which distributes over it (R102). -/
theorem laneBlock_eq_rotateLeft {w : Nat} (p : LaneParams w) (h k m : BitVec w) :
    laneBlock p h k m =
      (h ^^^ (k * p.c1).rotateLeft p.r1.val * p.c2).rotateLeft p.r2.val * 5 + m * 5 + p.n := by
  simp only [laneBlock, update, shuffle_eq_rotateLeft, rotl_eq_rotateLeft, BitVec.add_mul]

/-- The first update mixes in the old h2, the second the h1 just written (R172, R296). -/
theorem x64Block_eq (b : List Byte) (l : X64Lanes) :
    let h1 := (l.h1 ^^^ (word64 b 0 * 0x87c37b91114253d5).rotateLeft 31 * 0x4cf5ad432745937f).rotateLeft 27 * 5
      + l.h2 * 5 + 0x52dce729
    let h2 := (l.h2 ^^^ (word64 b 1 * 0x4cf5ad432745937f).rotateLeft 33 * 0x87c37b91114253d5).rotateLeft 31 * 5
      + h1 * 5 + 0x38495ab5
    x64Block b l = { h1 := h1, h2 := h2 } := by
  simp only [x64Block, laneBlock_eq_rotateLeft]
  rfl

/-! ### The words of a block (R53) -/

/-- The bytes of word `j` are the eight bytes of the block it was read from. -/
theorem bytesLe_word64 {b : List Byte} {j : Nat} (h : 8 * j + 8 ≤ b.length) :
    bytesLe 8 (word64 b j) = (b.drop (8 * j)).take 8 := by
  have hlen : ((b.drop (8 * j)).take 8).length = 8 := by
    rw [List.length_take, List.length_drop]
    omega
  have hbytes := bytesLe_le ((b.drop (8 * j)).take 8) 64 (by rw [hlen])
  rwa [hlen] at hbytes

/-- A block is the bytes of its two words. -/
theorem bytesLe_word64_append {b : List Byte} (h : b.length = 16) :
    bytesLe 8 (word64 b 0) ++ bytesLe 8 (word64 b 1) = b := by
  have hrest : (b.drop 8).take 8 = b.drop 8 := List.take_of_length_le (by rw [List.length_drop, h])
  rw [bytesLe_word64 (by omega), bytesLe_word64 (by omega), Nat.mul_zero, List.drop_zero, Nat.mul_one, hrest,
    List.take_append_drop]

/-! ### MIX_BLOCK on X64_128 (R172) -/

section block
variable {s : State}

theorem bw_x64 (hv : s.variant = .x64) : s.bw = 16 := by rw [State.bw, hv, blockWidth]

theorem mixBlock_x64 (hv : s.variant = .x64) (hm : s.mixphase = .blocks) (b : List Byte) :
    ∃ t, mixBlock b s = .ok t ∧ t.count = s.count + 16 ∧ t.mixphase = .blocks ∧
      x64View t.acc = x64Block b (x64View s.acc) := by
  refine ⟨_, mixBlock_ok hm b, ?_, hm, ?_⟩
  · rw [bw_x64 hv]
    rfl
  · rw [hv]
    exact x64View_pack _

end block

/-! ### The obligation -/

/-- Settles O41: a block's two words are its bytes, and each lane's new value is read off the lane function written out, so
that the h2 equation names the h1 just written. -/
theorem x64BlockSequential : Obligations.X64BlockSequential := by
  unfold Obligations.X64BlockSequential
  refine ⟨fun s b hv hm hl => ?block, fun s b _ hm => mixBlock_error hm b⟩
  case block =>
    obtain ⟨t, ht, hc, hp, hacc⟩ := mixBlock_x64 hv hm b
    rw [x64Block_eq] at hacc
    exact ⟨t, word64 b 0, word64 b 1, ht, hc, hp, bytesLe_word64_append hl, by rw [hacc], by rw [hacc]⟩

end Sys2Proof.Machine

/-! SUPPORT. The commands of the block buffer (44_block_buffer.md R191 to R195): what `exec` answers for a body that ends
in a state or in a cause, the headers INIT and PUT reject (R76), and the four commands performed. -/

namespace Sys2Proof

/-! ### Headers of INIT and PUT with a reserved bit (R76) -/

/-- INIT uses OP, VAR and SM: a header of its with VAR = 3, LEN nonzero or a reserved bit set is rejected. -/
theorem decodeHeader_init_reserved {h : Word} (ho : h.toNat % 16 = 1)
    (hb : h.toNat / 16 % 4 = 3 ∨ h.toNat / 128 % 2 ≠ 0 ∨ h.toNat / 256 % 256 ≠ 0 ∨ h.toNat / 65536 ≠ 0) :
    decodeHeader h = .error .reservedField := by
  have hop : (hdrOp h).toNat = 1 := by rw [hdrOp_toNat, ho]
  have hlegal : ¬((hdrOp h).toNat = 0 ∨ 7 ≤ (hdrOp h).toNat) := by omega
  have hset : (hdrHigh h ≠ 0 ∨ hdrBit7 h ≠ 0) ∨ hdrLen h ≠ 0 ∨ h.toNat / 16 % 4 = 3 := by
    simp only [ne_eq, BitVec.toNat_eq, hdrHigh_toNat, hdrBit7_toNat, hdrLen_toNat, BitVec.ofNat_eq_ofNat,
      BitVec.toNat_ofNat, Nat.zero_mod]
    omega
  rw [decodeHeader, if_neg hlegal]
  obtain hfixed | hlen | hvar := hset
  · rw [if_pos hfixed]
  · rw [if_pos (And.intro (by omega) hlen), ite_self]
  · have hnone : varOf (hdrVar h) = none := varOf_hdrVar hvar
    simp only [hop, hnone, ite_self]

/-- PUT uses OP and LEN: a header of its with another bit set is rejected. -/
theorem decodeHeader_put_reserved {h : Word} (ho : h.toNat % 16 = 3)
    (hb : h.toNat / 16 % 16 ≠ 0 ∨ h.toNat / 65536 ≠ 0) : decodeHeader h = .error .reservedField := by
  have hop : (hdrOp h).toNat = 3 := by rw [hdrOp_toNat, ho]
  have hlegal : ¬((hdrOp h).toNat = 0 ∨ 7 ≤ (hdrOp h).toNat) := by omega
  have hset : (hdrHigh h ≠ 0 ∨ hdrBit7 h ≠ 0) ∨ hdrVar h ≠ 0 ∨ hdrSm h ≠ 0 := by
    simp only [ne_eq, BitVec.toNat_eq, hdrHigh_toNat, hdrBit7_toNat, hdrVar_toNat, hdrSm_toNat, BitVec.ofNat_eq_ofNat,
      BitVec.toNat_ofNat, Nat.zero_mod]
    omega
  rw [decodeHeader, if_neg hlegal]
  obtain hfixed | hvar := hset
  · rw [if_pos hfixed]
  · rw [if_pos (And.intro (by omega) hvar), ite_self, ite_self]

/-! ### The words of INIT and PUT (R78, R79) -/

/-- INIT's header as a number, then its seed words. -/
theorem encode_init (op : SeedOperand) :
    encode (.init op) = BitVec.ofNat 32 (1 + 16 * op.variant.code.toNat + 64 * op.mode.code.toNat) :: op.payload := by
  rw [encode, init_header_eq, Instr.payload]

/-- Byte `j` of the bytes packed is byte `j mod 4` of payload word `j div 4`. -/
theorem getElem?_packBytes (d : List Byte) (j : Nat) (hj : j < d.length) :
    d[j]? = some (((packBytes d).getD (j / 4) 0).extractLsb' (8 * (j % 4)) 8) := by
  have hunpack := unpackBytes_getElem? (len := d.length) (p := packBytes d) (by rw [packBytes_length]; omega) j hj
  rwa [unpackBytes_packBytes] at hunpack

end Sys2Proof

namespace Sys2Proof.Machine

/-! ### A command by its body (R253) -/

section exec
variable {i : Instr} {s t : State}

theorem exec_ok (hf : s.fault = false) {ws : List Word} (hb : bodyOf i s = .ok (t, ws)) :
    exec i s = .next (respond (statusWord false .none (hdrOp i.header) :: ws) t) := by
  rw [exec_eq_perform, perform_ok hf hb]

theorem exec_error (hf : s.fault = false) {c : Cause} (hb : bodyOf i s = .error c) :
    exec i s = .next (raiseFault c i.header s) := by
  rw [exec_eq_perform, perform_error hf hb]

end exec

/-! ### INIT and START (R191, R192) -/

/-- MIX_INIT from an operand's seed register writes that register to ACC: it holds nothing outside the views (R23). -/
theorem seedAcc_seedView (op : SeedOperand) : seedAcc op.variant (seedView op) = seedView op := by
  cases op with
  | mur32 _ s => exact congrArg (BitVec.zeroExtend 128) (mur32View_zeroExtend s)
  | x86Broadcast s => exact congrArg x86Pack (x86View_pack _)
  | x86PerLane s1 s2 s3 s4 => exact congrArg x86Pack (x86View_pack _)
  | x64Broadcast s => exact congrArg x64Pack (x64View_pack _)
  | x64PerLane s1 s2 => exact congrArg x64Pack (x64View_pack _)

/-- INIT never looks at PHASE (D30). -/
theorem exec_init {s : State} (hf : s.fault = false) (op : SeedOperand) :
    exec (.init op) s = .next (respond [0x00000100] (beginHash op.variant { s with seed := seedView op })) := by
  rw [exec_ok hf rfl, Instr.header, hdrOp_headerWord]
  rfl

theorem startBody_ok {s : State} (hp : s.phase ≠ .idle) : startBody s = .ok (beginHash s.variant s, []) := by
  rw [startBody]
  split
  · contradiction
  · rfl
  · rfl

theorem startBody_idle {s : State} (hp : s.phase = .idle) : startBody s = .error .notConfigured := by
  rw [startBody, hp]

theorem exec_start {s : State} (hf : s.fault = false) (hp : s.phase ≠ .idle) :
    exec .start s = .next (respond [0x00000200] (beginHash s.variant s)) :=
  exec_ok hf (startBody_ok hp)

/-! ### PUT (R193) -/

theorem setBuflen_self (s : State) : setBuflen s.buflen.val s = s := by simp [setBuflen]

theorem keepLeftover_nil (s : State) : keepLeftover [] s = s := setBuflen_self s

/-- No bytes complete no block. -/
theorem fillBuffer_nil {s : State} (hl : s.buflen.val < s.bw) : fillBuffer [] s = .ok (s, []) := by
  rw [fillBuffer]
  split
  case isTrue => rfl
  case isFalse =>
    simp only [List.length_nil, Nat.min_zero, Nat.add_zero, if_neg (Nat.ne_of_lt hl)]
    exact congrArg (fun u => Except.ok (u, [])) (setBuflen_self s)

/-- No bytes change nothing, not even the bytes of BUF that no rule reads. -/
theorem putBytes_nil {s : State} (hl : s.buflen.val < s.bw) : putBytes [] s = .ok s := by
  rw [putBytes, fillBuffer_nil hl]
  exact congrArg Except.ok (keepLeftover_nil s)

section put
variable {s t : State} {d : List Byte}

theorem putBody_ok (hp : s.phase = .active) (hb : putBytes d s = .ok t) : putBody d s = .ok (t, []) := by
  simp only [putBody, hp, hb]

theorem putBody_idle (hp : s.phase = .idle) : putBody d s = .error .notConfigured := by
  rw [putBody, hp]

theorem putBody_finished (hp : s.phase = .finished) : putBody d s = .error .putAfterFinish := by
  rw [putBody, hp]

theorem exec_put (hf : s.fault = false) (hp : s.phase = .active) (hb : putBytes d s = .ok t) :
    exec (.put d) s = .next (respond [0x00000300] t) := by
  rw [exec_ok (i := .put d) hf (putBody_ok hp hb), Instr.header, hdrOp_headerWord]
  rfl

end put

/-! ### FINISH (R195) -/

section finish
variable {s : State}

theorem finishBody_idle (hp : s.phase = .idle) : finishBody s = .error .notConfigured := by
  rw [finishBody, hp]

theorem finishBody_finished (hp : s.phase = .finished) : finishBody s = .error .finishAfterFinish := by
  rw [finishBody, hp]

end finish

/-! ### The obligations -/

/-- Settles O23: the words of each form, and `beginHash` from the operand's seed register in every phase. -/
theorem initConstructs : Obligations.InitConstructs := by
  unfold Obligations.InitConstructs
  refine ⟨fun sm s => ?murWords, fun _ => encode_init _, fun _ _ _ _ => encode_init _, fun p0 p1 => ?x64Words,
    fun p0 p1 p2 p3 => ?x64Lanes, fun s op hf => ?effect,
    faultsReserved_of_decodeHeader fun _ => decodeHeader_init_reserved⟩
  case murWords => cases sm <;> exact encode_init _
  case x64Words =>
    have hwords := encode_init (.x64Broadcast (joinWords p0 p1))
    rwa [SeedOperand.payload, lowWord_join, highWord_join] at hwords
  case x64Lanes =>
    have hwords := encode_init (.x64PerLane (joinWords p0 p1) (joinWords p2 p3))
    rwa [SeedOperand.payload, lowWord_join, highWord_join, lowWord_join, highWord_join] at hwords
  case effect =>
    have hacc := seedAcc_seedView op
    rw [exec_init hf, beginHash, mixInit, hacc]
    rfl

/-- Settles O24: `beginHash` from SEED when PHASE is not IDLE, its accumulator in closed form. -/
theorem startRestarts : Obligations.StartRestarts := by
  unfold Obligations.StartRestarts
  refine ⟨rfl, fun s hf hp => ?effect, fun s hf hp => exec_error hf (startBody_idle hp),
    faultsReserved_above_op (by decide) (by decide) (by decide)⟩
  case effect =>
    rw [exec_start hf hp, beginHash, mixInit, seedAcc_closed]
    rfl

/-- Settles O25: the closed form of `putBytes`, which ends where it began when there are no bytes. -/
theorem putMixesWholeBlocks : Obligations.PutMixesWholeBlocks := by
  unfold Obligations.PutMixesWholeBlocks
  refine ⟨fun d hd => ?words, fun s d hinv hf hp => ?effect, fun s d hf hp => exec_error hf (putBody_idle hp),
    fun s d hf hp => exec_error hf (putBody_finished hp),
    faultsReserved_of_decodeHeader fun _ => decodeHeader_put_reserved⟩
  case words =>
    exact ⟨packBytes d, congrArg (· :: _) (put_header_eq d hd), packBytes_length d, getElem?_packBytes d⟩
  case effect =>
    obtain ⟨u, hu, hframe, hlen, hbuf⟩ := putBytes_ok d s (hinv.active_blocks hp) hinv.buflen_lt
    refine ⟨respond [0x00000300] u, exec_put hf hp hu, congrArg (respond _) hframe, hlen, hbuf, ?_⟩
    rintro rfl
    rw [putBytes_nil hinv.buflen_lt] at hu
    cases hu
    rfl

/-- Settles O26: the closed form of FINISH's body, answered. -/
theorem finishDeliversDigest : Obligations.FinishDeliversDigest := by
  unfold Obligations.FinishDeliversDigest
  refine ⟨rfl, fun s hinv hf hp => ?effect, fun s hf hp => exec_error hf (finishBody_idle hp),
    fun s hf hp => exec_error hf (finishBody_finished hp),
    faultsReserved_above_op (by decide) (by decide) (by decide)⟩
  case effect => exact exec_ok (i := .finish) hf (finishBody_ok s hp (hinv.active_blocks hp) hinv.buflen_lt)

end Sys2Proof.Machine

/-! SUPPORT. The digest serializer (45_digest_serializer.md R230 to R232): the bytes of a part of a value, and the digest
bytes of each variant as bytes of ACC itself. -/

namespace Sys2Proof

/-! ### Bytes of a value and of its parts (R10) -/

section bytes
variable {w : Nat} (v : BitVec w)

/-- A part inside a part. -/
theorem extract_extract {i j k l : Nat} (h : j + l ≤ k) :
    (v.extractLsb' i k).extractLsb' j l = v.extractLsb' (i + j) l := by
  ext b hb
  have hk : j + b < k := by omega
  simp only [BitVec.getElem_extractLsb', BitVec.getLsbD_extractLsb', hk, decide_true, Bool.true_and, Nat.add_assoc]

theorem bytesLe_getElem? {n i : Nat} (h : i < n) : (bytesLe n v)[i]? = some (v.extractLsb' (8 * i) 8) := by
  have hi : i < (bytesLe n v).length := by rwa [bytesLe_length]
  rw [List.getElem?_eq_getElem hi, bytesLe_getElem]

/-- The bytes of a part that begins at bit `i` are the value's bytes from bit `i` on. -/
theorem bytesLe_extractLsb' {n k : Nat} (i : Nat) (h : 8 * n ≤ k) :
    bytesLe n (v.extractLsb' i k) = (List.range n).map fun j => v.extractLsb' (i + 8 * j) 8 := by
  refine List.map_congr_left fun j hj => ?_
  rw [List.mem_range] at hj
  exact extract_extract v (by omega)

/-- The low bytes of a low part are the low bytes of the value. -/
theorem bytesLe_low {n k : Nat} (h : 8 * n ≤ k) : bytesLe n (v.extractLsb' 0 k) = bytesLe n v := by
  rw [bytesLe_extractLsb' v 0 h, bytesLe]
  simp only [Nat.zero_add]

/-- The low `m` bytes of a value, then those of the part above them. -/
theorem bytesLe_append_above {n k : Nat} (m : Nat) (h : 8 * n ≤ k) :
    bytesLe m v ++ bytesLe n (v.extractLsb' (8 * m) k) = bytesLe (m + n) v := by
  rw [bytesLe_extractLsb' v (8 * m) h]
  simp only [bytesLe, List.range_add, List.map_append, List.map_map, Function.comp_def, Nat.mul_add]

end bytes

end Sys2Proof

namespace Sys2Proof.Machine

/-! ### The digest bytes as bytes of ACC -/

section digest
variable (acc : Reg128)

theorem digestBytes_mur32 : digestBytes .mur32 acc = bytesLe 4 acc := bytesLe_low acc (by decide)

/-- The word order h1, h2, h3, h4 is ACC from its low end up. -/
theorem digestBytes_x86 : digestBytes .x86 acc = bytesLe 16 acc := by
  change bytesLe 4 (acc.extractLsb' 0 32) ++ bytesLe 4 (acc.extractLsb' 32 32) ++ bytesLe 4 (acc.extractLsb' 64 32) ++
    bytesLe 4 (acc.extractLsb' 96 32) = bytesLe 16 acc
  rw [bytesLe_low acc (by decide), bytesLe_append_above acc 4 (by decide), bytesLe_append_above acc 8 (by decide),
    bytesLe_append_above acc 12 (by decide)]

/-- The word order h2, h1 puts the high half of ACC first. -/
theorem digestBytes_x64 : digestBytes .x64 acc = bytesLe 8 (acc.extractLsb' 64 64) ++ bytesLe 8 acc :=
  congrArg (bytesLe 8 (acc.extractLsb' 64 64) ++ ·) (bytesLe_low acc (by decide))

theorem digestBytes_x64_getElem? {i : Nat} (h : i < 8) :
    (digestBytes .x64 acc)[i]? = some (acc.extractLsb' (64 + 8 * i) 8) ∧
      (digestBytes .x64 acc)[8 + i]? = some (acc.extractLsb' (8 * i) 8) := by
  rw [digestBytes_x64]
  constructor
  · rw [List.getElem?_append_left (by rwa [bytesLe_length]), bytesLe_getElem? _ h,
      extract_extract _ (by omega)]
  · rw [List.getElem?_append_right (by simp), bytesLe_length, Nat.add_sub_cancel_left, bytesLe_getElem? _ h]

theorem digestBytes_length (v : Variant) : (digestBytes v acc).length = digestWidth v := by
  cases v with
  | mur32 => rw [digestBytes_mur32, bytesLe_length]; rfl
  | x86 => rw [digestBytes_x86, bytesLe_length]; rfl
  | x64 => rw [digestBytes_x64, List.length_append, bytesLe_length, bytesLe_length]; rfl

end digest

/-! ### MIX_GETBYTES (R130) -/

section getBytes
variable {s : State}

theorem mixGetBytes_ok (h : s.mixphase = .finalized) : mixGetBytes s = .ok (digestBytes s.variant s.acc) := by
  obtain ⟨_, he⟩ | ⟨hn, _⟩ := mixGetBytes_cases s
  · exact he
  · exact absurd h hn

theorem mixGetBytes_error (h : s.mixphase ≠ .finalized) : mixGetBytes s = .error .digestNotReady := by
  obtain ⟨hf, _⟩ | ⟨_, he⟩ := mixGetBytes_cases s
  · exact absurd hf h
  · exact he

end getBytes

/-! ### The obligation -/

/-- Settles O44: the digest bytes are `digestBytes` of ACC, which per variant are ACC's own bytes in order, but for X64_128,
whose high half comes first. -/
theorem serializerByteOrder : Obligations.SerializerByteOrder := by
  unfold Obligations.SerializerByteOrder
  intro s
  refine ⟨mixGetBytes_error, fun hm hv => ?mur32, fun hm hv => ?x86, fun hm hv => ?x64⟩
  all_goals
    refine ⟨_, mixGetBytes_ok hm, ?_⟩
    rw [hv]
    refine ⟨digestBytes_length s.acc _, fun i hi => ?_⟩
  case mur32 => rw [digestBytes_mur32, bytesLe_getElem? _ hi]
  case x86 => rw [digestBytes_x86, bytesLe_getElem? _ hi]
  case x64 => exact digestBytes_x64_getElem? s.acc hi

end Sys2Proof.Machine

/-! SUPPORT. Faults (60_exceptions.md): the legal headers and the one command each spells (R85), the checks of R252 as the
decoder and the bodies make them, and every step into a fault as the fault entry of R253. -/

namespace Sys2Proof

/-! ### Legal headers (R85) -/

section decodeHeader
variable {h : Word} {f : CommandForm}

/-- A word with no reserved bit set is the header of its fields (R71). -/
theorem headerWord_fields (hhigh : hdrHigh h = 0) (hbit : hdrBit7 h = 0) :
    headerWord (hdrOp h) (hdrVar h) (hdrSm h) (hdrLen h) = h := by
  have hh := (hdrHigh_toNat h).symm.trans (congrArg BitVec.toNat hhigh)
  have hb := (hdrBit7_toNat h).symm.trans (congrArg BitVec.toNat hbit)
  apply BitVec.eq_of_toNat_eq
  rw [headerWord_toNat, hdrOp_toNat, hdrVar_toNat, hdrSm_toNat, hdrLen_toNat]
  simp only [BitVec.ofNat_eq_ofNat, BitVec.toNat_ofNat] at hh hb
  omega

theorem code_of_varOf {b : BitVec 2} {v : Variant} (hv : varOf b = some v) : v.code = b := by
  revert b v
  decide

theorem varOf_eq_none {b : BitVec 2} (hv : varOf b = none) : b.toNat = 3 := by
  revert b
  decide

theorem code_smOf (b : BitVec 1) : (smOf b).code = b := by
  revert b
  decide

/-- Every legal header, and the command form it spells. -/
theorem decodeHeader_ok_cases (hd : decodeHeader h = .ok f) :
    (∃ v sm, f = .init v sm ∧ h = headerWord 1 v.code sm.code 0) ∨
    (f = .start ∧ h = headerWord 2 0 0 0) ∨
    (∃ len, f = .put (BitVec.toNat len) ∧ h = headerWord 3 0 0 len) ∨
    (f = .finish ∧ h = headerWord 4 0 0 0) ∨
    (f = .fmix32 ∧ h = headerWord 5 0 0 0) ∨
    (f = .fmix64 ∧ h = headerWord 6 0 0 0) := by
  have hop := decodeHeader_op hd
  simp only [decodeHeader] at hd
  split_ifs at hd with hlegal hfixed hlen hvar
  push Not at hfixed hlen hvar
  have hw := headerWord_fields hfixed.1 hfixed.2
  have hplain (h1 : (hdrOp h).toNat ≠ 1) (h3 : (hdrOp h).toNat ≠ 3) : h = headerWord f.op 0 0 0 := by
    rw [hop, ← hlen h3, ← (hvar h1).1, ← (hvar h1).2, hw]
  split at hd
  case h_1 ho =>
    split at hd <;> cases hd
    next v hv =>
    rw [← hop, ← code_of_varOf hv, hlen (by omega), ← code_smOf (hdrSm h)] at hw
    exact .inl ⟨_, _, rfl, hw.symm⟩
  case h_2 => cases hd; exact .inr (.inl ⟨rfl, hplain (by omega) (by omega)⟩)
  case h_3 =>
    cases hd
    obtain ⟨hv, hs⟩ := hvar (by omega)
    rw [← hop, hv, hs] at hw
    exact .inr (.inr (.inl ⟨_, rfl, hw.symm⟩))
  case h_4 => cases hd; exact .inr (.inr (.inr (.inl ⟨rfl, hplain (by omega) (by omega)⟩)))
  case h_5 => cases hd; exact .inr (.inr (.inr (.inr (.inl ⟨rfl, hplain (by omega) (by omega)⟩))))
  case h_6 => cases hd; exact .inr (.inr (.inr (.inr (.inr ⟨rfl, hplain (by omega) (by omega)⟩))))

/-- Encoding the command read behind a legal header gives that header back. -/
theorem header_readOperands {ws : List Word} (hd : decodeHeader h = .ok f) (hp : payloadLen h ≤ ws.length) :
    (readOperands f (ws.take (payloadLen h))).header = h := by
  obtain ⟨v, sm, rfl, rfl⟩ | ⟨rfl, rfl⟩ | ⟨len, rfl, hh⟩ | ⟨rfl, rfl⟩ | ⟨rfl, rfl⟩ | ⟨rfl, rfl⟩ :=
    decodeHeader_ok_cases hd
  case inr.inr.inl =>
    have hop : h.toNat % 16 = 3 := by rw [← hdrOp_toNat, hh, hdrOp_headerWord]; rfl
    have hlen : h.toNat / 256 % 256 = len.toNat := by rw [← hdrLen_toNat, hh, hdrLen_headerWord]
    have hput := payloadLen_put hop
    rw [readOperands, Instr.header, unpackBytes_length _ _ (by rw [List.length_take]; omega), BitVec.ofNat_toNat,
      BitVec.setWidth_eq, hh]
  case inl => cases v <;> cases sm <;> rfl
  all_goals rfl

end decodeHeader

end Sys2Proof

namespace Sys2Proof.Machine

/-! ### The checks of R252 -/

section checks
variable {h : Word} {r : Reject} {i : Instr} {s : State} {c : Cause}

/-- Checks 1 and 2 are the decoder's. -/
theorem firstFailingCheck_reject (hd : decodeHeader h = .error r) (p : Phase) :
    firstFailingCheck h p = some (rejectCause r) := by
  simp only [decodeHeader, ne_eq, BitVec.toNat_eq, hdrOp_toNat, hdrHigh_toNat, hdrBit7_toNat, hdrLen_toNat, hdrVar_toNat,
    hdrSm_toNat, BitVec.ofNat_eq_ofNat, BitVec.toNat_ofNat, Nat.zero_mod] at hd
  unfold firstFailingCheck
  split_ifs at hd with hop hfixed hlen hvar
  · cases hd
    exact if_pos hop
  all_goals rw [if_neg hop]
  · cases hd; exact if_pos (by omega)
  · cases hd; exact if_pos (by omega)
  · cases hd; exact if_pos (by omega)
  · split at hd
    case h_1 ho =>
      split at hd <;> cases hd
      next hv =>
      have h3 := (hdrVar_toNat h).symm.trans (varOf_eq_none hv)
      exact if_pos (by omega)
    all_goals cases hd

/-- Checks 3 to 5 (R252): the phases in which START, PUT and FINISH fault. -/
def phaseCheck : Instr → Phase → Option Cause
  | .start, .idle => some .notConfigured
  | .put _, .idle => some .notConfigured
  | .put _, .finished => some .putAfterFinish
  | .finish, .idle => some .notConfigured
  | .finish, .finished => some .finishAfterFinish
  | _, _ => none

/-- A command's header passes checks 1 and 2; only those of its phase are left. -/
theorem firstFailingCheck_header (i : Instr) (p : Phase) : firstFailingCheck i.header p = phaseCheck i p := by
  cases i with
  | init op =>
    have hn : (Instr.init op).header.toNat = _ := headerWord_toNat ..
    have hv : op.variant.code.toNat < 3 := by cases op.variant <;> decide
    have hm := op.mode.code.isLt
    simp only [BitVec.ofNat_eq_ofNat, BitVec.toNat_ofNat] at hn
    unfold firstFailingCheck
    rw [if_neg (by omega), if_neg (by omega), if_neg (by omega), if_neg (by omega), if_neg (by omega)]
    rfl
  | start =>
    change firstFailingCheck (headerWord 2 0 0 0) p = _
    cases p <;> decide
  | put d =>
    have hn : (Instr.put d).header.toNat = _ := headerWord_toNat ..
    simp only [BitVec.ofNat_eq_ofNat, BitVec.toNat_ofNat] at hn
    have ho : (Instr.put d).header.toNat % 16 = 3 := by omega
    unfold firstFailingCheck
    rw [if_neg (by omega), if_neg (by omega), ho]
    cases p <;> rfl
  | finish =>
    change firstFailingCheck (headerWord 4 0 0 0) p = _
    cases p <;> decide
  | fmix32 p0 =>
    change firstFailingCheck (headerWord 5 0 0 0) p = none
    cases p <;> decide
  | fmix64 p0 p1 =>
    change firstFailingCheck (headerWord 6 0 0 0) p = none
    cases p <;> decide

/-- A command that fails a check of 3 to 5 raises its cause. -/
theorem bodyOf_error_of_phaseCheck (hc : phaseCheck i s.phase = some c) : bodyOf i s = .error c := by
  cases i with
  | start => cases hp : s.phase <;> rw [hp] at hc <;> cases hc; exact startBody_idle hp
  | put d =>
    cases hp : s.phase <;> rw [hp] at hc <;> cases hc
    · exact putBody_idle hp
    · exact putBody_finished hp
  | finish =>
    cases hp : s.phase <;> rw [hp] at hc <;> cases hc
    · exact finishBody_idle hp
    · exact finishBody_finished hp
  | init op => cases hc
  | fmix32 p0 => cases hc
  | fmix64 p0 p1 => cases hc

/-- From a state with the wrapper invariants a command that passes the checks ends in a state: no mixer fault arises
(R262). -/
theorem bodyOf_ok_of_phaseCheck (hinv : WrapperInv s) (hc : phaseCheck i s.phase = none) :
    ∃ t ws, bodyOf i s = .ok (t, ws) := by
  cases i with
  | start => exact ⟨_, _, startBody_ok fun hp => by rw [hp] at hc; cases hc⟩
  | put d =>
    cases hp : s.phase with
    | active =>
      obtain ⟨t, ht, _⟩ := putBytes_ok d s (hinv.active_blocks hp) hinv.buflen_lt
      exact ⟨t, _, putBody_ok hp ht⟩
    | idle => rw [hp] at hc; cases hc
    | finished => rw [hp] at hc; cases hc
  | finish =>
    cases hp : s.phase with
    | active => exact ⟨_, _, finishBody_ok s hp (hinv.active_blocks hp) hinv.buflen_lt⟩
    | idle => rw [hp] at hc; cases hc
    | finished => rw [hp] at hc; cases hc
  | init op => exact ⟨_, _, rfl⟩
  | fmix32 p0 => exact ⟨_, _, rfl⟩
  | fmix64 p0 p1 => exact ⟨_, _, rfl⟩

/-- The wrapper invariants say nothing about the words that wait. -/
theorem WrapperInv.with_input (hinv : WrapperInv s) (ws : List Word) : WrapperInv { s with input := ws } :=
  ⟨hinv.buflen_lt, hinv.idle_clean, hinv.active_blocks, hinv.finished_finalized, hinv.mur32_high,
    hinv.count_whole_blocks⟩

end checks

/-! ### A step that faults (R253) -/

/-- Every step into a fault is the fault entry of the command at the front of the input, its frame consumed. -/
theorem step_fault {s t : State} (hr : s.resetLine = false) (hs : step s = .next t) (ht : t.fault = true) :
    ∃ h ws c, s.input = h :: ws ∧ t = raiseFault c h { s with input := ws.drop (payloadLen h) } := by
  obtain ⟨hr', _⟩ | ⟨_, hf, ⟨r, h, rest, hd, rfl⟩ | ⟨i, rest, hd, he⟩⟩ := step_next hs
  · simp [hr] at hr'
  · obtain ⟨p, hi, _, rfl, _⟩ := decode_reject_inv hd
    exact ⟨h, p, _, hi, rfl⟩
  · obtain ⟨h, p, f, hi, hp, rfl, hh, rfl⟩ := decode_instr_inv hd
    rw [exec_eq_perform, header_readOperands hh hp] at he
    obtain ⟨_, ⟨c, _, rfl⟩ | ⟨u, ws, hb, rfl⟩⟩ := perform_next he
    · exact ⟨h, p, c, hi, rfl⟩
    · have hu := (bodyOf_sameInterface hb).fault
      simp [hu, hf] at ht

/-! ### The obligations -/

/-- Settles O17: a rejected header fails check 1 or 2; a legal one spells a command, whose body makes checks 3 to 5. -/
theorem firstFailingCheckGivesCause : Obligations.FirstFailingCheckGivesCause := by
  unfold Obligations.FirstFailingCheckGivesCause
  refine ⟨fun s h ws hr hf hi hp => ?_, fun s b => ⟨fun hm => mixTail_notAccepted hm b, mixTail_tooLong⟩⟩
  cases hd : decodeHeader h with
  | error r =>
    have hs := step_reject hr hf (hi ▸ decode_reject hp hd)
    rw [firstFailingCheck_reject hd]
    refine ⟨?_, nofun⟩
    rintro _ ⟨⟩
    exact hs
  | ok f =>
    have hs := step_instr hr hf (hi ▸ decode_ok hp hd)
    have hf' : ({ s with input := ws.drop (payloadLen h) } : State).fault = false := hf
    have hh := header_readOperands hd hp
    generalize readOperands f (ws.take (payloadLen h)) = i at hs hh
    subst hh
    rw [firstFailingCheck_header, hs]
    refine ⟨fun c hc => exec_error hf' (bodyOf_error_of_phaseCheck hc), fun hc hinv => ?_⟩
    obtain ⟨t, data, hb⟩ := bodyOf_ok_of_phaseCheck (hinv.with_input (ws.drop (payloadLen i.header))) hc
    exact ⟨_, exec_ok hf' hb, (bodyOf_sameInterface hb).fault.trans hf⟩

/-- Settles O18: a step into a fault is the fault entry, whose status word is read as a number. -/
theorem faultEntryIsPrecise : Obligations.FaultEntryIsPrecise := by
  unfold Obligations.FaultEntryIsPrecise
  intro s t hr hs ht
  obtain ⟨h, ws, c, hi, rfl⟩ := step_fault hr hs ht
  refine ⟨h, ws, statusWord true c (hdrOp h), hi, ?_, rfl⟩
  rw [statusWord_toNat, hdrOp_toNat, raiseFault_cause]
  rfl

/-- Settles O19: neither a step nor a command goes on while FAULT = 1. -/
theorem faultedBlockPerformsNothing : Obligations.FaultedBlockPerformsNothing := by
  unfold Obligations.FaultedBlockPerformsNothing
  exact fun s hf => ⟨fun hr => step_stopped hr hf, exec_stopped hf⟩

/-- Settles O20: of all a step can be, only the reset starts with FAULT = 1, and it clears the three registers. -/
theorem onlyResetLeavesTheFault : Obligations.OnlyResetLeavesTheFault := by
  unfold Obligations.OnlyResetLeavesTheFault
  refine ⟨fun s t hf hs => ?_, fun s hr => ⟨_, step_reset hr, rfl, rfl, rfl⟩⟩
  obtain ⟨hr, _⟩ | ⟨_, hf', _⟩ := step_next hs
  · exact hr
  · simp [hf] at hf'

end Sys2Proof.Machine

/-! SUPPORT. Commands on the word stream (30_encoding.md): decode after encode and encode after decode (R70 to R85), the split
of PUTN (R87), and what a step finds in the input and leaves of it (R70, R254, R297). -/

namespace Sys2Proof

/-! ### Decode after encode (R85) -/

/-- A command's header is legal, and the payload read under its form is the command. -/
theorem decodeHeader_header {i : Instr} (hw : i.wf = true) :
    ∃ f, decodeHeader i.header = .ok f ∧ readOperands f i.payload = i := by
  cases i with
  | init op => exact ⟨_, decodeHeader_init op, congrArg Instr.init (readSeed_payload op)⟩
  | start => exact ⟨.start, by decide, rfl⟩
  | put d => exact ⟨_, decodeHeader_put d (put_wf_length hw), congrArg Instr.put (unpackBytes_packBytes d)⟩
  | finish => exact ⟨.finish, by decide, rfl⟩
  | fmix32 p0 => exact ⟨.fmix32, by simp [decodeHeader, Instr.header], rfl⟩
  | fmix64 p0 p1 => exact ⟨.fmix64, by simp [decodeHeader, Instr.header], rfl⟩

/-- The words of a well-formed command decode to it, whatever stands behind them. -/
theorem decode_encode {i : Instr} (hw : i.wf = true) (rest : List Word) : decode (encode i ++ rest) = .instr i rest := by
  obtain ⟨f, hf, hread⟩ := decodeHeader_header hw
  rw [encode, List.cons_append, decode_frame _ _ _ (payloadLen_header i hw).symm, hf]
  exact congrArg (Decoded.instr · rest) hread

/-! ### Encode after decode (R84) -/

/-- A payload of its form's length is the payload of the seed operand it spells (R78). -/
theorem payload_readSeed {v : Variant} {sm : SeedMode} {p : List Word} (hp : p.length = initPayloadLen v sm) :
    (readSeed v sm p).payload = p := by
  cases v with
  | mur32 =>
    obtain ⟨a, rfl⟩ := List.length_eq_one_iff.mp hp
    rfl
  | x86 =>
    cases sm with
    | broadcast =>
      obtain ⟨a, rfl⟩ := List.length_eq_one_iff.mp hp
      rfl
    | perLane =>
      match p, hp with
      | [a, b, c, d], _ => rfl
  | x64 =>
    cases sm with
    | broadcast =>
      match p, hp with
      | [a, b], _ => simp [readSeed, SeedOperand.payload, payloadWord]
    | perLane =>
      match p, hp with
      | [a, b, c, d], _ => simp [readSeed, SeedOperand.payload, payloadWord]

/-- What a legal header and its frame spell: a well-formed command with that header, and the frame is the command's payload
up to the bytes that PUT ignores. -/
theorem readOperands_frame {h : Word} {f : CommandForm} {p : List Word} (hd : decodeHeader h = .ok f)
    (hp : p.length = payloadLen h) :
    (readOperands f p).wf = true ∧ (readOperands f p).header = h ∧
      ((∀ d, readOperands f p ≠ .put d) → p = (readOperands f p).payload) ∧
      (∀ d, readOperands f p = .put d → unpackBytes d.length p = d) := by
  have hh : (readOperands f p).header = h := by
    have hcut := header_readOperands hd (ws := p) hp.ge
    rwa [← hp, List.take_length] at hcut
  obtain ⟨v, sm, rfl, rfl⟩ | ⟨rfl, rfl⟩ | ⟨len, rfl, rfl⟩ | ⟨rfl, rfl⟩ | ⟨rfl, rfl⟩ | ⟨rfl, rfl⟩ :=
    decodeHeader_ok_cases hd
  case inl =>
    have hlen : p.length = initPayloadLen v sm := by
      simpa [payloadLen] using hp
    exact ⟨rfl, hh, fun _ => (payload_readSeed hlen).symm, nofun⟩
  case inr.inr.inl =>
    have hlen : (unpackBytes len.toNat p).length = len.toNat := by
      refine unpackBytes_length _ _ ?_
      have hop : (headerWord 3 0 0 len).toNat % 16 = 3 := by rw [← hdrOp_toNat, hdrOp_headerWord]; rfl
      rw [hp, payloadLen_put hop, ← hdrLen_toNat, hdrLen_headerWord]
      omega
    refine ⟨decide_eq_true ?_, hh, fun hne => absurd rfl (hne _), ?_⟩
    · rw [hlen]
      exact Nat.le_of_lt_succ len.isLt
    · rintro _ ⟨⟩
      rw [hlen]
  case inr.inr.inr.inr.inl =>
    obtain ⟨a, rfl⟩ := List.length_eq_one_iff.mp hp
    exact ⟨rfl, hh, fun _ => rfl, nofun⟩
  case inr.inr.inr.inr.inr =>
    match p, hp with
    | [a, b], _ => exact ⟨rfl, hh, fun _ => rfl, nofun⟩
  all_goals exact ⟨rfl, hh, fun _ => List.eq_nil_of_length_eq_zero hp, nofun⟩

end Sys2Proof

namespace Sys2Proof.Machine

/-! ### The split of PUTN (R87) -/

/-- `q` chunks of 255 bytes and the rest: in order, none empty, all but the last full. -/
theorem putChunks_split (q : Nat) (d : List Byte) (hq : q = d.length / maxPutLen) :
    ∃ cs : List (List Byte), putChunks q d = cs.map Instr.put ∧ cs.flatten = d ∧
      (∀ c ∈ cs, 0 < c.length ∧ c.length ≤ 255) ∧ (∀ c ∈ cs.dropLast, c.length = 255) := by
  simp only [maxPutLen] at hq
  induction q generalizing d with
  | zero =>
    by_cases hd : d.length = 0
    · exact ⟨[], if_pos hd, (List.eq_nil_of_length_eq_zero hd).symm, nofun, nofun⟩
    · refine ⟨[d], if_neg hd, by simp, fun c hc => ?_, nofun⟩
      rw [List.mem_singleton.mp hc]
      omega
  | succ q ih =>
    obtain ⟨cs, hcs, hflat, hlen, hfull⟩ := ih (d.drop maxPutLen) (by rw [List.length_drop, maxPutLen]; omega)
    have hfirst : (d.take maxPutLen).length = 255 := by rw [List.length_take, maxPutLen]; omega
    refine ⟨d.take maxPutLen :: cs, congrArg (_ :: ·) hcs, ?_, ?_, ?_⟩
    · rw [List.flatten_cons, hflat, List.take_append_drop]
    · intro c hc
      obtain rfl | hc := List.mem_cons.mp hc
      · omega
      · exact hlen c hc
    · intro c hc
      cases cs with
      | nil => cases hc
      | cons c' cs =>
        obtain rfl | hc := List.mem_cons.mp hc
        · exact hfirst
        · exact hfull c hc

theorem putn_split (d : List Byte) :
    ∃ cs : List (List Byte), putn d = cs.map Instr.put ∧ cs.flatten = d ∧
      (∀ c ∈ cs, 0 < c.length ∧ c.length ≤ 255) ∧ (∀ c ∈ cs.dropLast, c.length = 255) :=
  putChunks_split _ d rfl

/-! ### What a command leaves of the input -/

/-- A command touches neither the words that wait nor the reset request. -/
theorem exec_interface {i : Instr} {s t : State} (he : exec i s = .next t) :
    t.input = s.input ∧ t.resetLine = s.resetLine := by
  rw [exec_eq_perform] at he
  obtain ⟨_, ⟨c, _, rfl⟩ | ⟨u, ws, hb, rfl⟩⟩ := perform_next he
  · exact ⟨rfl, rfl⟩
  · have hu := bodyOf_sameInterface hb
    exact ⟨hu.input, hu.resetLine⟩

/-- A step but reset takes a header and the words it frames. -/
theorem step_input {s t : State} (hr : s.resetLine = false) (hs : step s = .next t) :
    ∃ h ws, s.input = h :: ws ∧ payloadLen h ≤ ws.length ∧ t.input = ws.drop (payloadLen h) := by
  obtain ⟨hr', _⟩ | ⟨_, _, ⟨r, h, rest, hd, rfl⟩ | ⟨i, rest, hd, he⟩⟩ := step_next hs
  · simp [hr] at hr'
  · obtain ⟨p, hi, hp, hrest, _⟩ := decode_reject_inv hd
    exact ⟨h, p, hi, hp, hrest⟩
  · obtain ⟨h, p, f, hi, hp, hrest, _⟩ := decode_instr_inv hd
    exact ⟨h, p, hi, hp, (exec_interface he).1.trans hrest⟩

/-! ### When there is a step -/

/-- With FAULT = 0 every command completes. -/
theorem exec_total {s : State} (hf : s.fault = false) (i : Instr) : ∃ t, exec i s = .next t := by
  rw [exec_eq_perform]
  exact perform_total hf

section waiting
variable {s : State} (hr : s.resetLine = false) (hf : s.fault = false)
include hr hf

theorem step_awaitingHeader (hi : s.input = []) : step s = .fault .awaitingHeader := by
  rw [step_takeCommand hr hf, takeCommand, hi, decode]

theorem step_awaitingPayload {h : Word} {ws : List Word} (hi : s.input = h :: ws) (hl : ws.length < payloadLen h) :
    step s = .fault .awaitingPayload := by
  rw [step_takeCommand hr hf, takeCommand, hi, decode, if_pos hl]

theorem step_total {h : Word} {ws : List Word} (hi : s.input = h :: ws) (hp : payloadLen h ≤ ws.length) :
    ∃ t, step s = .next t := by
  cases hd : decodeHeader h with
  | error r => exact ⟨_, step_reject hr hf (hi ▸ decode_reject hp hd)⟩
  | ok f =>
    rw [step_instr hr hf (hi ▸ decode_ok hp hd)]
    exact exec_total (s := { s with input := ws.drop (payloadLen h) }) hf _

end waiting

/-- A well-formed command at the front of the input is performed. -/
theorem step_encode {s : State} (hr : s.resetLine = false) (hf : s.fault = false) {i : Instr} (hw : i.wf = true)
    {rest : List Word} (hi : s.input = encode i ++ rest) : step s = exec i { s with input := rest } :=
  step_instr hr hf (hi ▸ decode_encode hw rest)

/-! ### The obligations -/

/-- Settles O3: the header passes the checks and frames the payload, which reads back as the operands. -/
theorem decodeEncodeRoundTrip : Obligations.DecodeEncodeRoundTrip := by
  unfold Obligations.DecodeEncodeRoundTrip
  exact fun i rest hw => decode_encode hw rest

/-- Settles O4: the frame of a decoded command is that of its header, and is read back from the operands. -/
theorem decodedWordsAreTheEncoding : Obligations.DecodedWordsAreTheEncoding := by
  unfold Obligations.DecodedWordsAreTheEncoding
  intro ws i rest hd
  obtain ⟨h, p, f, rfl, hp, rfl, hh, rfl⟩ := decode_instr_inv hd
  have hlen : (p.take (payloadLen h)).length = payloadLen h := by rw [List.length_take]; omega
  obtain ⟨hwf, hhdr, hother, hput⟩ := readOperands_frame hh hlen
  refine ⟨hwf, p.take (payloadLen h), ?_, ?_, hother, hput⟩
  · rw [hhdr, List.take_append_drop]
  · rw [← payloadLen_header _ hwf, hhdr, hlen]

/-- Settles O6: every step but reset takes one frame from the input. -/
theorem stepConsumesOneFrame : Obligations.StepConsumesOneFrame := by
  unfold Obligations.StepConsumesOneFrame
  exact fun s t => step_input

/-- Settles O9: the bytes of words are cut back into the words, and stand in order. -/
theorem byteLinkCarriesWords : Obligations.ByteLinkCarriesWords := by
  unfold Obligations.ByteLinkCarriesWords
  exact ⟨linkWords_linkBytes, linkBytes_getElem?⟩

/-- Settles O10, by induction on the number of full chunks. -/
theorem putnSplitsInOrder : Obligations.PutnSplitsInOrder := by
  unfold Obligations.PutnSplitsInOrder
  exact putn_split

/-- Settles O21: the input is empty, too short, or starts with a whole frame, which is rejected or performed. -/
theorem noStepOnlyWhenFaultedOrWaiting : Obligations.NoStepOnlyWhenFaultedOrWaiting := by
  unfold Obligations.NoStepOnlyWhenFaultedOrWaiting
  exact fun s hr hf => ⟨step_awaitingHeader hr hf, fun h ws hi => ⟨step_awaitingPayload hr hf hi, step_total hr hf hi⟩⟩

/-- Settles O1: for the encoder's words by decoding them, for any others by what they decode to. -/
theorem stepRunsDecodedCommand : Obligations.StepRunsDecodedCommand := by
  unfold Obligations.StepRunsDecodedCommand
  exact ⟨fun s i rest hr hf hw hi => step_encode hr hf hw hi, fun s i rest hr hf hd => step_instr hr hf hd⟩

/-- Settles O2, by running the decoder on the nine streams. -/
theorem specWordsDecode : Obligations.SpecWordsDecode := by
  unfold Obligations.SpecWordsDecode
  refine ⟨?_, ?_, ?_, ?_, ?_, ?_, ?_, ?_, ?_⟩ <;> decide

end Sys2Proof.Machine

/-! SUPPORT. The mixers in closed form: the finalizers as compositions of bijections (40_primitives.md R103, R104), the mixer
interface (41_mixer32.md R130), the blocks of the four-lane mixer (R152), the tails of both 128-bit mixers without their
guards (R153, R173), and DIGEST as a function of ACC (45_digest_serializer.md section 2). -/

namespace Sys2Proof.Machine

/-! ### The finalizers are bijections (R103, R104) -/

section bijections
variable {w : Nat}

/-- An xor with a right shift of itself, the step of the finalizers between two products. -/
def xorShift (r : Nat) (x : BitVec w) : BitVec w := x ^^^ x >>> r

/-- Doing it twice doubles the distance: the two middle terms cancel. -/
theorem xorShift_comp_self (r : Nat) : xorShift (w := w) r ∘ xorShift r = xorShift (r + r) := by
  funext x
  simp only [Function.comp_apply, xorShift, BitVec.ushiftRight_xor_distrib, ← BitVec.shiftRight_add]
  rw [BitVec.xor_assoc, ← BitVec.xor_assoc (x >>> r), BitVec.xor_self, BitVec.zero_xor]

/-- A distance of the width or more changes nothing. -/
theorem xorShift_of_le {r : Nat} (h : w ≤ r) : xorShift (w := w) r = id := by
  funext x
  rw [xorShift, BitVec.ushiftRight_eq_zero h, BitVec.xor_zero, id]

theorem bijective_of_comp_self {α : Type} {f : α → α} (h : Function.Bijective (f ∘ f)) : Function.Bijective f :=
  ⟨h.injective.of_comp, h.surjective.of_comp⟩

/-- Doubling the distance often enough reaches the width. -/
theorem xorShift_bijective {r : Nat} (k : Nat) (h : w ≤ 2 ^ k * r) : Function.Bijective (xorShift (w := w) r) := by
  induction k generalizing r with
  | zero =>
    rw [xorShift_of_le (by omega)]
    exact Function.bijective_id
  | succ k ih =>
    apply bijective_of_comp_self
    rw [xorShift_comp_self]
    exact ih (by rw [Nat.pow_succ] at h; rw [← Nat.two_mul, ← Nat.mul_assoc]; exact h)

/-- A product with an invertible constant. -/
theorem mul_bijective {c d : BitVec w} (h : c * d = 1#w) : Function.Bijective (fun x : BitVec w => x * c) := by
  refine Function.bijective_iff_has_inverse.mpr ⟨fun x => x * d, fun x => ?_, fun x => ?_⟩
  · simp only [BitVec.mul_assoc, h, BitVec.mul_one]
  · simp only [BitVec.mul_assoc, BitVec.mul_comm d c, h, BitVec.mul_one]

end bijections

theorem fmix32_eq_comp :
    fmix32 = xorShift 16 ∘ (· * 0xc2b2ae35) ∘ xorShift 13 ∘ (· * 0x85ebca6b) ∘ xorShift 16 := rfl

theorem fmix64_eq_comp :
    fmix64 = xorShift 33 ∘ (· * 0xc4ceb9fe1a85ec53) ∘ xorShift 33 ∘ (· * 0xff51afd7ed558ccd) ∘ xorShift 33 := rfl

theorem fmix32_bijective : Function.Bijective fmix32 := by
  have hshift16 : Function.Bijective (xorShift (w := 32) 16) := xorShift_bijective 1 (by decide)
  have hshift13 : Function.Bijective (xorShift (w := 32) 13) := xorShift_bijective 2 (by decide)
  have hmul1 : Function.Bijective (fun x : Word => x * 0x85ebca6b) := mul_bijective (d := 0xa5cb9243) (by decide)
  have hmul2 : Function.Bijective (fun x : Word => x * 0xc2b2ae35) := mul_bijective (d := 0x7ed1b41d) (by decide)
  rw [fmix32_eq_comp]
  exact hshift16.comp (hmul2.comp (hshift13.comp (hmul1.comp hshift16)))

theorem fmix64_bijective : Function.Bijective fmix64 := by
  have hshift : Function.Bijective (xorShift (w := 64) 33) := xorShift_bijective 1 (by decide)
  have hmul1 : Function.Bijective (fun x : Word64 => x * 0xff51afd7ed558ccd) :=
    mul_bijective (d := 0x4f74430c22a54005) (by decide)
  have hmul2 : Function.Bijective (fun x : Word64 => x * 0xc4ceb9fe1a85ec53) :=
    mul_bijective (d := 0x9cb4b2f8129337db) (by decide)
  rw [fmix64_eq_comp]
  exact hshift.comp (hmul2.comp (hshift.comp (hmul1.comp hshift)))

/-! ### MIX_INIT by the variant's views (R130) -/

theorem high_zeroExtend (h1 : Word) : (h1.zeroExtend 128).extractLsb' 32 96 = 0 := by
  ext i hi
  simp

/-- No MUR32 seed reaches `ACC[127:32]` (R132). -/
theorem seedAcc_mur32_high (seed : Reg128) : (seedAcc .mur32 seed).extractLsb' 32 96 = 0 := high_zeroExtend _

theorem mixInit_views (v : Variant) (seed : Reg128) (s : State) :
    (v = .mur32 → mur32View (mixInit v seed s).acc = mur32View seed ∧ (mixInit v seed s).acc.extractLsb' 32 96 = 0) ∧
      (v = .x86 → x86View (mixInit v seed s).acc = x86View seed) ∧
      (v = .x64 → x64View (mixInit v seed s).acc = x64View seed) := by
  refine ⟨?_, ?_, ?_⟩
  · rintro rfl
    exact ⟨mur32View_zeroExtend _, seedAcc_mur32_high seed⟩
  · rintro rfl
    exact x86View_pack _
  · rintro rfl
    exact x64View_pack _

/-! ### The four-lane block (R152) -/

/-- The first three updates mix in the next lane's old value, the fourth the h1 just written (R152, R296). -/
theorem x86Block_eq (b : List Byte) (l : X86Lanes) :
    let h1 := (l.h1 ^^^ (word32 b 0 * 0x239b961b).rotateLeft 15 * 0xab0e9789).rotateLeft 19 * 5 + l.h2 * 5 + 0x561ccd1b
    let h2 := (l.h2 ^^^ (word32 b 1 * 0xab0e9789).rotateLeft 16 * 0x38b34ae5).rotateLeft 17 * 5 + l.h3 * 5 + 0x0bcaa747
    let h3 := (l.h3 ^^^ (word32 b 2 * 0x38b34ae5).rotateLeft 17 * 0xa1e38b93).rotateLeft 15 * 5 + l.h4 * 5 + 0x96cd1c35
    let h4 := (l.h4 ^^^ (word32 b 3 * 0xa1e38b93).rotateLeft 18 * 0x239b961b).rotateLeft 13 * 5 + h1 * 5 + 0x32ac3b17
    x86Block b l = { h1 := h1, h2 := h2, h3 := h3, h4 := h4 } := by
  simp only [x86Block, laneBlock_eq_rotateLeft]
  rfl

/-- The bytes of the value of a slice are the slice. -/
theorem bytesLe_le_slice {b : List Byte} {i n w : Nat} (hb : i + n ≤ b.length) (hw : 8 * n ≤ w) :
    bytesLe n (le w ((b.drop i).take n)) = (b.drop i).take n := by
  have hlen : ((b.drop i).take n).length = n := by
    rw [List.length_take, List.length_drop]
    omega
  have hbytes := bytesLe_le ((b.drop i).take n) w (by rwa [hlen])
  rwa [hlen] at hbytes

theorem bytesLe_word32 {b : List Byte} {j : Nat} (h : 4 * j + 4 ≤ b.length) :
    bytesLe 4 (word32 b j) = (b.drop (4 * j)).take 4 := bytesLe_le_slice h (by decide)

/-- A block is the bytes of its four words. -/
theorem bytesLe_word32_append {b : List Byte} (h : b.length = 16) :
    bytesLe 4 (word32 b 0) ++ bytesLe 4 (word32 b 1) ++ bytesLe 4 (word32 b 2) ++ bytesLe 4 (word32 b 3) = b := by
  rw [bytesLe_word32 (by omega), bytesLe_word32 (by omega), bytesLe_word32 (by omega), bytesLe_word32 (by omega),
    Nat.mul_zero, List.drop_zero, Nat.mul_one, ← List.take_add, ← List.take_add, ← List.take_add,
    List.take_of_length_le h.le]

section x86
variable {s : State}

theorem bw_x86 (hv : s.variant = .x86) : s.bw = 16 := by rw [State.bw, hv, blockWidth]

theorem mixBlock_x86 (hv : s.variant = .x86) (hm : s.mixphase = .blocks) (b : List Byte) :
    ∃ t, mixBlock b s = .ok t ∧ t.count = s.count + 16 ∧ t.mixphase = .blocks ∧
      x86View t.acc = x86Block b (x86View s.acc) := by
  refine ⟨_, mixBlock_ok hm b, ?_, hm, ?_⟩
  · rw [bw_x86 hv]
    rfl
  · rw [hv]
    exact x86View_pack _

end x86

/-! ### The tails without their guards (R153, R173) -/

theorem shuffle_zero {w : Nat} (c1 c2 : BitVec w) (r1 : Fin (w + 1)) : shuffle 0#w c1 c2 r1 = 0#w := by
  have hrot : (0#w).rotateLeft r1.val = 0#w := by
    ext i hi
    simp [BitVec.getElem_rotateLeft]
  rw [shuffle_eq_rotateLeft, BitVec.zero_mul, hrot, BitVec.zero_mul]

theorem laneTail_zero {w : Nat} (p : LaneParams w) (h : BitVec w) : laneTail p h 0#w = h := by
  rw [laneTail, shuffle_zero, BitVec.xor_zero]

/-- The guard of a group may be dropped: the group of a tail that does not reach it has the value 0. -/
theorem laneTail_guard {w : Nat} (p : LaneParams w) (h : BitVec w) (t : List Byte) (i n : Nat) :
    (if i < t.length then laneTail p h (le w ((t.drop i).take n)) else h) = laneTail p h (le w ((t.drop i).take n)) := by
  split
  case isTrue => rfl
  case isFalse hi =>
    rw [List.drop_eq_nil_of_le (Nat.le_of_not_lt hi), List.take_nil]
    exact (laneTail_zero p h).symm

theorem x86Tail_eq (t : List Byte) (l : X86Lanes) :
    x86Tail t l =
      { h1 := laneTail x86Lane1 l.h1 (word32 t 0)
        h2 := laneTail x86Lane2 l.h2 (word32 t 1)
        h3 := laneTail x86Lane3 l.h3 (word32 t 2)
        h4 := laneTail x86Lane4 l.h4 (word32 t 3) } := by
  simp only [x86Tail, word32, Nat.mul_zero, Nat.mul_one, Nat.reduceMul, laneTail_guard]

theorem x64Tail_eq (t : List Byte) (l : X64Lanes) :
    x64Tail t l = { h1 := laneTail x64Lane1 l.h1 (word64 t 0), h2 := laneTail x64Lane2 l.h2 (word64 t 1) } := by
  simp only [x64Tail, word64, Nat.mul_zero, Nat.mul_one, laneTail_guard]

/-- The last group of a tail is what is left of it. -/
theorem take_drop_last {b : List Byte} {i n : Nat} (h : b.length ≤ i + n) : (b.drop i).take n = b.drop i :=
  List.take_of_length_le (by rw [List.length_drop]; omega)

section tails
variable {s : State} {b : List Byte}

theorem mixTail_x86 (hv : s.variant = .x86) (hm : s.mixphase = .blocks) (hl : b.length < 16) :
    ∃ t, mixTail b s = .ok t ∧ t.count = s.count + BitVec.ofNat 64 b.length ∧ t.mixphase = .tailTaken ∧
      x86View t.acc = x86Tail b (x86View s.acc) := by
  refine ⟨_, mixTail_ok hm (by rwa [bw_x86 hv]), rfl, rfl, ?_⟩
  rw [hv]
  exact x86View_pack _

theorem mixTail_x64 (hv : s.variant = .x64) (hm : s.mixphase = .blocks) (hl : b.length < 16) :
    ∃ t, mixTail b s = .ok t ∧ t.count = s.count + BitVec.ofNat 64 b.length ∧ t.mixphase = .tailTaken ∧
      x64View t.acc = x64Tail b (x64View s.acc) := by
  refine ⟨_, mixTail_ok hm (by rwa [bw_x64 hv]), rfl, rfl, ?_⟩
  rw [hv]
  exact x64View_pack _

theorem bw_of_ne_mur32 (hv : s.variant ≠ .mur32) : s.bw = 16 := by
  cases h : s.variant with
  | mur32 => exact absurd h hv
  | x86 => exact bw_x86 h
  | x64 => exact bw_x64 h

end tails

/-! ### DIGEST as a function of ACC (R195, R230 to R232) -/

section digestReg
variable (acc : Reg128)

theorem digestReg_mur32 : digestReg (digestBytes .mur32 acc) = (acc.extractLsb' 0 32).zeroExtend 128 := by
  apply BitVec.eq_of_toNat_eq
  rw [digestBytes_mur32, digestReg, le, leNat_bytesLe]
  simp

theorem digestReg_x86 : digestReg (digestBytes .x86 acc) = acc := by
  rw [digestBytes_x86, digestReg, le_bytesLe acc (by decide)]

/-- The bytes of the high half, then those of the low half, are the bytes of ACC with its halves swapped. -/
theorem digestReg_x64 :
    digestReg (digestBytes .x64 acc) = acc.extractLsb' 0 64 ++ acc.extractLsb' 64 64 := by
  have hswap : bytesLe 16 (acc.extractLsb' 0 64 ++ acc.extractLsb' 64 64) = digestBytes .x64 acc := by
    rw [← bytesLe_append_above (k := 64) _ 8 (n := 8) (by decide), extract_append_high,
      ← bytesLe_low (k := 64) _ (by decide), extract_append_low, digestBytes_x64, bytesLe_low acc (by decide)]
  rw [← hswap, digestReg, le_bytesLe _ (by decide)]

end digestReg

/-! ### The obligations -/

/-- Settles O36: two products with odd constants between three xor-shifts, each a bijection. -/
theorem fmix32IsBijective : Obligations.Fmix32IsBijective := by
  unfold Obligations.Fmix32IsBijective
  exact ⟨fmix32_zero, fmix32_bijective⟩

/-- Settles O37, as for fmix32. -/
theorem fmix64IsBijective : Obligations.Fmix64IsBijective := by
  unfold Obligations.Fmix64IsBijective
  exact ⟨fmix64_zero, fmix64_bijective⟩

/-- Settles O38: each operation's answer by MIXPHASE and length. -/
theorem mixerInterfaceContract : Obligations.MixerInterfaceContract := by
  unfold Obligations.MixerInterfaceContract
  intro s b
  refine ⟨fun v seed => ⟨rfl, mixInit_views v seed s⟩, fun hm => ⟨_, mixBlock_ok hm b, rfl⟩, fun hm => mixBlock_error hm b,
    fun hm hl => ⟨_, mixTail_ok hm hl, rfl⟩, fun hm => mixTail_notAccepted hm b, mixTail_tooLong,
    fun hm => ⟨_, mixFinalize_ok hm, rfl⟩, mixFinalize_error,
    fun hm => ⟨_, mixGetBytes_ok hm, digestBytes_length s.acc s.variant⟩, mixGetBytes_error⟩

/-- Settles O40: a block's four words are its bytes, and each lane's new value is read off the lane function written out,
so that the h4 equation names the h1 just written. -/
theorem x86BlockSequential : Obligations.X86BlockSequential := by
  unfold Obligations.X86BlockSequential
  refine ⟨fun s b hv hm hl => ?block, fun s b _ hm => mixBlock_error hm b⟩
  case block =>
    obtain ⟨t, ht, hc, hp, hacc⟩ := mixBlock_x86 hv hm b
    rw [x86Block_eq] at hacc
    exact ⟨t, word32 b 0, word32 b 1, word32 b 2, word32 b 3, ht, hc, hp, bytesLe_word32_append hl, by rw [hacc],
      by rw [hacc], by rw [hacc], by rw [hacc]⟩

/-- Settles O42: MIX_TAIL's lane functions without their guards, the last group cut where the tail ends. -/
theorem tailFoldsEveryGroup : Obligations.TailFoldsEveryGroup := by
  unfold Obligations.TailFoldsEveryGroup
  refine ⟨fun s b hv hm hl => ?x86, fun s b hv hm hl => ?x64, fun s b _ hm => mixTail_notAccepted hm b,
    fun s b hv hm hl => mixTail_tooLong hm (by rwa [bw_of_ne_mur32 hv])⟩
  case x86 =>
    obtain ⟨t, ht, hc, hp, hacc⟩ := mixTail_x86 hv hm hl
    have hlast : (b.drop 12).take 4 = b.drop 12 := take_drop_last (by omega)
    rw [x86Tail_eq] at hacc
    rw [← hlast]
    exact ⟨t, ht, hc, hp, by rw [hacc]; rfl, by rw [hacc]; rfl, by rw [hacc]; rfl, by rw [hacc]; rfl⟩
  case x64 =>
    obtain ⟨t, ht, hc, hp, hacc⟩ := mixTail_x64 hv hm hl
    have hlast : (b.drop 8).take 8 = b.drop 8 := take_drop_last (by omega)
    rw [x64Tail_eq] at hacc
    rw [← hlast]
    exact ⟨t, ht, hc, hp, by rw [hacc]; rfl, by rw [hacc]; rfl⟩

/-- Settles O45: FINISH serializes the ACC it leaves, and the digest bytes are read back as one number. -/
theorem digestIsAFunctionOfAcc : Obligations.DigestIsAFunctionOfAcc := by
  unfold Obligations.DigestIsAFunctionOfAcc
  intro s t he hf
  rw [exec_eq_perform] at he
  obtain ⟨_, ⟨c, _, rfl⟩ | ⟨u, ws, hb, rfl⟩⟩ := perform_next he
  · cases hf
  · obtain ⟨_, hu, _⟩ := finishBody_frame hb
    have hv : u.variant = s.variant := (congrArg State.variant hu :)
    have hd : u.digest = digestReg (digestBytes u.variant u.acc) := hv ▸ (congrArg State.digest hu :)
    simp only [respond_variant, respond_digest, respond_acc, hd]
    refine ⟨fun h => ?_, fun h => ?_, fun h => ?_⟩
    · rw [h, digestReg_mur32]
    · rw [h, digestReg_x86]
    · rw [h, digestReg_x64]

end Sys2Proof.Machine

/-! SUPPORT. Feeding bytes as a relation of two states (44_block_buffer.md R193): what PUT does to ACC, COUNT, BUFLEN and the
valid bytes of BUF depends on the bytes alone, not on how they are cut. The byte-serial form (R194). -/

namespace Sys2Proof.Machine

/-- `t` is `s` after it has taken the bytes `d`: the buffered bytes and `d` are one stream, whose whole blocks are mixed and
whose remainder is buffered. Only ACC, COUNT, BUF and BUFLEN change, and what has been answered. -/
structure Absorbs (s : State) (d : List Byte) (t : State) : Prop where
  frame : t =
    { s with acc := t.acc, count := t.count, buf := t.buf, buflen := t.buflen, output := t.output }
  acc : t.acc = foldBlocks s.bw (blockAcc s.variant) (wholeBlocks s d) (pending s d) s.acc
  count : t.count = s.count + BitVec.ofNat 64 (s.bw * wholeBlocks s d)
  buflen : t.buflen.val = (s.buflen.val + d.length) % s.bw
  buffered : t.buffered = (pending s d).drop (s.bw * wholeBlocks s d)

theorem bw_pos (s : State) : 0 < s.bw := blockWidth_pos s.variant

theorem pending_length (s : State) (d : List Byte) : (pending s d).length = s.buflen.val + d.length := by
  rw [pending, List.length_append, buffered_length]

theorem wholeBlocks_le (s : State) (d : List Byte) : s.bw * wholeBlocks s d ≤ (pending s d).length := by
  rw [pending_length, wholeBlocks]
  exact Nat.mul_div_le _ _

/-! ### The elements it leaves -/

namespace Absorbs
variable {s t u : State} {d e : List Byte} (h : Absorbs s d t)
include h

theorem phase : t.phase = s.phase := (congrArg State.phase h.frame :)
theorem variant : t.variant = s.variant := (congrArg State.variant h.frame :)
theorem seed : t.seed = s.seed := (congrArg State.seed h.frame :)
theorem mixphase : t.mixphase = s.mixphase := (congrArg State.mixphase h.frame :)
theorem digest : t.digest = s.digest := (congrArg State.digest h.frame :)
theorem fault : t.fault = s.fault := (congrArg State.fault h.frame :)
theorem bw : t.bw = s.bw := congrArg blockWidth h.variant

theorem buflen_lt : t.buflen.val < t.bw := by
  rw [h.buflen, h.bw]
  exact Nat.mod_lt _ (bw_pos s)

/-! ### Answers, no bytes, more bytes -/

/-- Answering something more changes nothing of it. -/
theorem respond (ws : List Word) : Absorbs s d (Machine.respond ws t) :=
  ⟨congrArg (Machine.respond ws) h.frame, h.acc, h.count, h.buflen, h.buffered⟩

/-- First `d`, then `e`, is both in one piece. -/
theorem trans (h' : Absorbs t e u) : Absorbs s (d ++ e) u := by
  have hv := h.variant
  have hbw := h.bw
  have hpos := bw_pos s
  have hle := wholeBlocks_le s d
  have hpend : pending s (d ++ e) = pending s d ++ e := by rw [pending, pending, List.append_assoc]
  have hpend' : pending t e = (pending s d ++ e).drop (s.bw * wholeBlocks s d) := by
    rw [pending, h.buffered, List.drop_append_of_le_length hle]
  have hblocks : wholeBlocks s (d ++ e) = wholeBlocks s d + wholeBlocks t e := by
    have hdiv := Nat.div_add_mod (s.buflen.val + d.length) s.bw
    rw [wholeBlocks, wholeBlocks, wholeBlocks, hbw, h.buflen, List.length_append, ← Nat.add_assoc]
    conv_lhs => rw [← hdiv, Nat.add_assoc, Nat.mul_add_div hpos]
  refine ⟨h'.frame.trans ?_, ?_, ?_, ?_, ?_⟩
  · rw [h.frame]
  · rw [h'.acc, h.acc, hbw, hv, hpend', hpend, hblocks, foldBlocks_add, foldBlocks_append _ _ _ _ _ _ hle]
  · rw [h'.count, h.count, hbw, hblocks, Nat.mul_add, BitVec.ofNat_add, BitVec.add_assoc]
  · rw [h'.buflen, h.buflen, hbw, List.length_append, Nat.mod_add_mod, Nat.add_assoc]
  · rw [h'.buffered, hpend', hpend, hblocks, hbw, List.drop_drop, Nat.mul_add]

end Absorbs

theorem absorbs_nil {s : State} (hl : s.buflen.val < s.bw) : Absorbs s [] s := by
  have hk : wholeBlocks s [] = 0 := Nat.div_eq_of_lt hl
  refine ⟨rfl, ?_, ?_, (Nat.mod_eq_of_lt hl).symm, ?_⟩
  · rw [hk, foldBlocks]
  · rw [hk, Nat.mul_zero, BitVec.add_zero]
  · rw [hk, Nat.mul_zero, List.drop_zero, pending, List.append_nil]

/-! ### PUT and the byte-serial form -/

section put
variable {s : State} (hm : s.mixphase = .blocks) (hl : s.buflen.val < s.bw)

theorem putBytes_output {d : List Byte} {t : State} (h : putBytes d s = .ok t) : t.output = s.output :=
  (congrArg State.output (putBytes_frame h) :)

include hm hl in
theorem putBytes_absorbs (d : List Byte) : ∃ t, putBytes d s = .ok t ∧ Absorbs s d t := by
  obtain ⟨t, ht, hframe, hbuflen, hbuffered⟩ := putBytes_ok d s hm hl
  refine ⟨t, ht, ⟨?_, (congrArg State.acc hframe :), (congrArg State.count hframe :), hbuflen, hbuffered⟩⟩
  rw [putBytes_output ht]
  exact putBytes_frame ht

include hl in
/-- PUT_BYTE is PUT of one byte, whichever of its steps takes it. -/
theorem putByte_eq_putBytes (x : Byte) : putByte x s = putBytes [x] s := by
  have hbw : 1 < s.bw := by cases hv : s.variant <;> rw [State.bw, hv, blockWidth] <;> decide
  rw [putByte, putBytes, fillBuffer]
  by_cases h0 : s.buflen.val = 0
  · rw [if_pos h0, if_neg (by omega)]
    simp only [List.length_singleton, forwardBlocks, if_neg (Nat.not_le.mpr hbw)]
    rfl
  · have hn : min (s.bw - s.buflen.val) [x].length = 1 := by rw [List.length_singleton]; omega
    rw [if_neg h0]
    simp only [hn, List.take_succ_cons, List.take_zero, List.drop_succ_cons, List.drop_zero]
    split
    case isTrue =>
      cases mixBlock (bufRead s.bw (appendBytes [x] s).buf) (appendBytes [x] s) with
      | error c => rfl
      | ok u => exact congrArg Except.ok (keepLeftover_nil _).symm
    case isFalse => exact congrArg Except.ok (keepLeftover_nil _).symm

include hm hl in
/-- PUT_BYTE on each byte in order takes the bytes as PUT does. -/
theorem putSerial_absorbs (d : List Byte) : ∃ t, putSerial d s = .ok t ∧ Absorbs s d t := by
  induction d generalizing s with
  | nil => exact ⟨s, rfl, absorbs_nil hl⟩
  | cons x d ih =>
    obtain ⟨t, ht, hx⟩ := putBytes_absorbs hm hl [x]
    obtain ⟨u, hu, hd⟩ := ih (hx.mixphase.trans hm) hx.buflen_lt
    refine ⟨u, ?_, hx.trans hd⟩
    rw [putSerial, putByte_eq_putBytes hl, ht]
    exact hu

end put

/-- PUT performed: the bytes are taken and one status word is answered. -/
theorem exec_put_absorbs {s : State} (hf : s.fault = false) (hp : s.phase = .active) (hm : s.mixphase = .blocks)
    (hl : s.buflen.val < s.bw) (d : List Byte) :
    ∃ t, exec (.put d) s = .next t ∧ Absorbs s d t ∧ t.output = s.output ++ [0x00000300] := by
  obtain ⟨t, ht, hd⟩ := putBytes_absorbs hm hl d
  exact ⟨_, exec_put hf hp ht, hd.respond _, by rw [respond_output, putBytes_output ht]⟩

/-! ### The obligation -/

/-- Settles O32: both forms take the bytes, and what that leaves depends on the bytes alone. -/
theorem putEqualsByteSerialForm : Obligations.PutEqualsByteSerialForm := by
  unfold Obligations.PutEqualsByteSerialForm
  intro s d hinv hf hp
  have hm := hinv.active_blocks hp
  obtain ⟨t, ht, htd, _⟩ := exec_put_absorbs hf hp hm hinv.buflen_lt d
  obtain ⟨u, hu, hud⟩ := putSerial_absorbs hm hinv.buflen_lt d
  exact ⟨t, u, ht, hu, htd.acc.trans hud.acc.symm, htd.count.trans hud.count.symm,
    Fin.ext (htd.buflen.trans hud.buflen.symm), htd.buffered.trans hud.buffered.symm⟩

end Sys2Proof.Machine

/-! SUPPORT. What every step keeps and what each command may write: all that a body that ends in a state can have done, the
wrapper invariants (10_state.md R36), the fault registers (R31, R32, R262), SEED (R23), the reset (70_reset_and_hazards.md
R290), and the bytes of BUF that no rule reads (R26). -/

namespace Sys2Proof.Machine

/-! ### Everything a command can do -/

section inversion
variable {i : Instr} {s t : State} {ws : List Word}

/-- Everything a body that ends in a state can have done. -/
theorem bodyOf_cases (h : bodyOf i s = .ok (t, ws)) :
    (∃ op, i = .init op ∧ t = beginHash op.variant { s with seed := seedView op }) ∨
    (i = .start ∧ s.phase ≠ .idle ∧ t = beginHash s.variant s) ∨
    (∃ d, i = .put d ∧ s.phase = .active ∧ putBytes d s = .ok t) ∨
    (i = .finish ∧ s.phase = .active ∧ finishBody s = .ok (t, ws)) ∨
    (((∃ p0, i = .fmix32 p0) ∨ ∃ p0 p1, i = .fmix64 p0 p1) ∧ t = s) := by
  cases i with
  | init op => cases h; exact .inl ⟨op, rfl, rfl⟩
  | start =>
    have hp : s.phase ≠ .idle := fun hp => by simp [bodyOf, startBody_idle hp] at h
    rw [bodyOf, startBody_ok hp] at h
    cases h
    exact .inr (.inl ⟨rfl, hp, rfl⟩)
  | put d =>
    simp only [bodyOf, putBody] at h
    split at h
    · cases h
    · cases h
    · split at h
      · cases h
      · cases h
        exact .inr (.inr (.inl ⟨d, rfl, ‹_›, ‹_›⟩))
  | finish => exact .inr (.inr (.inr (.inl ⟨rfl, (finishBody_frame h).1, h⟩)))
  | fmix32 p0 => cases h; exact .inr (.inr (.inr (.inr ⟨.inl ⟨p0, rfl⟩, rfl⟩)))
  | fmix64 p0 p1 => cases h; exact .inr (.inr (.inr (.inr ⟨.inr ⟨p0, p1, rfl⟩, rfl⟩)))

/-- Everything a command can do: its fault, or its body and the response. -/
theorem exec_next (he : exec i s = .next t) :
    s.fault = false ∧ ((∃ c, bodyOf i s = .error c ∧ t = raiseFault c i.header s) ∨
      ∃ u ws, bodyOf i s = .ok (u, ws) ∧ t = respond (statusWord false .none (hdrOp i.header) :: ws) u) :=
  perform_next (exec_eq_perform i s ▸ he)

/-- Only INIT writes VARIANT and SEED (R22, R23). -/
theorem bodyOf_variant_seed (hi : ∀ op, i ≠ .init op) (h : bodyOf i s = .ok (t, ws)) :
    t.variant = s.variant ∧ t.seed = s.seed := by
  obtain ⟨op, rfl, _⟩ | ⟨_, _, rfl⟩ | ⟨d, _, _, ht⟩ | ⟨_, _, ht⟩ | ⟨_, rfl⟩ := bodyOf_cases h
  · exact absurd rfl (hi op)
  · exact ⟨rfl, rfl⟩
  · rw [putBytes_frame ht]
    exact ⟨rfl, rfl⟩
  · rw [(finishBody_frame ht).2.1]
    exact ⟨rfl, rfl⟩
  · exact ⟨rfl, rfl⟩

/-- No command leads back to IDLE. -/
theorem bodyOf_phase_ne_idle (hp : s.phase ≠ .idle) (h : bodyOf i s = .ok (t, ws)) : t.phase ≠ .idle := by
  obtain ⟨op, _, rfl⟩ | ⟨_, _, rfl⟩ | ⟨d, _, _, ht⟩ | ⟨_, _, ht⟩ | ⟨_, rfl⟩ := bodyOf_cases h
  · nofun
  · nofun
  · rw [putBytes_frame ht]
    exact hp
  · rw [(finishBody_frame ht).2.1]
    nofun
  · exact hp

/-- From FINISHED a command that stays there writes nothing (R24). -/
theorem bodyOf_finished (hs : s.phase = .finished) (ht : t.phase = .finished) (h : bodyOf i s = .ok (t, ws)) : t = s := by
  obtain ⟨op, _, rfl⟩ | ⟨_, _, rfl⟩ | ⟨d, _, hp, _⟩ | ⟨_, hp, _⟩ | ⟨_, rfl⟩ := bodyOf_cases h
  · cases ht
  · cases ht
  · simp [hs] at hp
  · simp [hs] at hp
  · rfl

end inversion

/-! ### The wrapper invariants (R36) -/

theorem zero_high : (0 : Reg128).extractLsb' 32 96 = 0 := by decide

section mur32High
variable (acc : Reg128)

theorem blockAcc_mur32_high (b : List Byte) :
    (blockAcc .mur32 b acc).extractLsb' 32 96 = acc.extractLsb' 32 96 := mur32Write_high _ _

theorem foldBlocks_mur32_high (bw k : Nat) (S : List Byte) :
    (foldBlocks bw (blockAcc .mur32) k S acc).extractLsb' 32 96 = acc.extractLsb' 32 96 := by
  induction k generalizing S acc with
  | zero => rfl
  | succ k ih => rw [foldBlocks_succ, ih, blockAcc_mur32_high]

theorem tailAcc_mur32_high (t : List Byte) :
    (tailAcc .mur32 t acc).extractLsb' 32 96 = acc.extractLsb' 32 96 := mur32Write_high _ _

theorem finalAcc_mur32_high (n : BitVec 64) :
    (finalAcc .mur32 n acc).extractLsb' 32 96 = acc.extractLsb' 32 96 := mur32Write_high _ _

theorem finishAcc_mur32_high {s : State} (hv : s.variant = .mur32) :
    (finishAcc s).extractLsb' 32 96 = s.acc.extractLsb' 32 96 := by
  rw [finishAcc, hv, finalAcc_mur32_high]
  split
  · rfl
  · exact tailAcc_mur32_high _ _

theorem finishDigest_mur32_high {s : State} (hv : s.variant = .mur32) : (finishDigest s).extractLsb' 32 96 = 0 := by
  rw [finishDigest, hv, digestReg_mur32]
  exact high_zeroExtend _

end mur32High

/-- The state FINISH leaves, when its mixer accepts the tail (R195). -/
def afterFinish (s : State) : State :=
  { s with
    phase := .finished
    acc := finishAcc s
    count := finishCount s
    buflen := 0
    mixphase := .finalized
    digest := finishDigest s }

theorem finishBody_afterFinish {s : State} (hp : s.phase = .active) (hm : s.mixphase = .blocks)
    (hl : s.buflen.val < s.bw) : finishBody s = .ok (afterFinish s, digestWords s.variant (finishDigest s)) :=
  finishBody_ok s hp hm hl

theorem beginHash_inv (v : Variant) (s : State) : WrapperInv (beginHash v s) where
  buflen_lt := blockWidth_pos v
  idle_clean := nofun
  active_blocks := fun _ => rfl
  finished_finalized := nofun
  mur32_high := by
    rintro rfl
    exact ⟨seedAcc_mur32_high _, zero_high⟩
  count_whole_blocks := fun _ => Nat.zero_mod _

theorem reset_wrapperInv : WrapperInv State.reset := by
  refine ⟨?_, ?_, ?_, ?_, ?_, ?_⟩ <;> decide

namespace WrapperInv
variable {s t : State} (hinv : WrapperInv s)
include hinv

/-- The invariants say nothing about the responses. -/
theorem respond (ws : List Word) : WrapperInv (Machine.respond ws s) :=
  ⟨hinv.buflen_lt, hinv.idle_clean, hinv.active_blocks, hinv.finished_finalized, hinv.mur32_high, hinv.count_whole_blocks⟩

/-- The invariants say nothing about the fault registers. -/
theorem raiseFault (c : Cause) (h : Word) : WrapperInv (Machine.raiseFault c h s) :=
  ⟨hinv.buflen_lt, hinv.idle_clean, hinv.active_blocks, hinv.finished_finalized, hinv.mur32_high, hinv.count_whole_blocks⟩

/-- COUNT stays a whole number of blocks when it wraps: the block width divides `2 ^ 64`. -/
theorem absorbs {d : List Byte} (hp : s.phase = .active) (hd : Absorbs s d t) : WrapperInv t where
  buflen_lt := hd.buflen_lt
  idle_clean := fun h => by simp [hd.phase, hp] at h
  active_blocks := fun _ => hd.mixphase.trans (hinv.active_blocks hp)
  finished_finalized := fun h => by simp [hd.phase, hp] at h
  mur32_high := by
    rw [hd.variant, hd.digest, hd.acc]
    intro hv
    rw [hv, foldBlocks_mur32_high]
    exact hinv.mur32_high hv
  count_whole_blocks := by
    intro hm
    have h0 := hinv.count_whole_blocks (hd.mixphase.symm.trans hm)
    have hdvd : s.bw ∣ 2 ^ 64 := blockWidth_dvd s.variant
    rw [hd.count, hd.bw, BitVec.toNat_add, BitVec.toNat_ofNat, Nat.add_mod_mod, Nat.mod_mod_of_dvd _ hdvd,
      Nat.add_mul_mod_self_left, h0]

theorem afterFinish : WrapperInv (afterFinish s) where
  buflen_lt := bw_pos s
  idle_clean := nofun
  active_blocks := nofun
  finished_finalized := fun _ => ⟨rfl, rfl⟩
  mur32_high := fun (hv : s.variant = .mur32) =>
    ⟨(finishAcc_mur32_high hv).trans (hinv.mur32_high hv).1, finishDigest_mur32_high hv⟩
  count_whole_blocks := nofun

theorem bodyOf {i : Instr} {ws : List Word} (h : bodyOf i s = .ok (t, ws)) : WrapperInv t := by
  obtain ⟨op, _, rfl⟩ | ⟨_, _, rfl⟩ | ⟨d, _, hp, ht⟩ | ⟨_, hp, ht⟩ | ⟨_, rfl⟩ := bodyOf_cases h
  · exact beginHash_inv _ _
  · exact beginHash_inv _ _
  · obtain ⟨u, hu, hd⟩ := putBytes_absorbs (hinv.active_blocks hp) hinv.buflen_lt d
    cases hu.symm.trans ht
    exact hinv.absorbs hp hd
  · cases (finishBody_afterFinish hp (hinv.active_blocks hp) hinv.buflen_lt).symm.trans ht
    exact hinv.afterFinish
  · exact hinv

theorem exec {i : Instr} (he : exec i s = .next t) : WrapperInv t := by
  obtain ⟨_, ⟨c, _, rfl⟩ | ⟨u, ws, hb, rfl⟩⟩ := exec_next he
  · exact hinv.raiseFault c _
  · exact (hinv.bodyOf hb).respond _

theorem step (hs : step s = .next t) : WrapperInv t := by
  obtain ⟨_, rfl⟩ | ⟨_, _, ⟨r, h, rest, _, rfl⟩ | ⟨i, rest, _, he⟩⟩ := step_next hs
  · exact reset_wrapperInv.respond s.output
  · exact (hinv.with_input rest).raiseFault _ _
  · exact (hinv.with_input rest).exec he

end WrapperInv

/-! ### The fault registers (R31, R32, R262) -/

theorem reset_faultInv : FaultInv State.reset := ⟨fun _ => ⟨rfl, rfl⟩, nofun⟩

theorem raiseFault_faultInv {c : Cause} (hc : c ∈ commandCauses) (h : Word) (s : State) :
    FaultInv (raiseFault c h s) := ⟨nofun, fun _ => hc⟩

theorem rejectCause_mem (r : Reject) : rejectCause r ∈ commandCauses := by cases r <;> decide

theorem phaseCheck_mem {i : Instr} {p : Phase} {c : Cause} (h : phaseCheck i p = some c) : c ∈ commandCauses := by
  cases i <;> cases p <;> cases h <;> decide

/-- A body that meets the wrapper invariants raises the cause of checks 3 to 5, never a mixer-internal one (R262). -/
theorem bodyOf_error_mem {i : Instr} {s : State} {c : Cause} (hinv : WrapperInv s) (h : bodyOf i s = .error c) :
    c ∈ commandCauses := by
  cases hc : phaseCheck i s.phase with
  | none =>
    obtain ⟨t, ws, hb⟩ := bodyOf_ok_of_phaseCheck hinv hc
    cases h.symm.trans hb
  | some c' =>
    cases h.symm.trans (bodyOf_error_of_phaseCheck hc)
    exact phaseCheck_mem hc

theorem step_faultInv {s t : State} (hinv : WrapperInv s) (hfi : FaultInv s) (hs : step s = .next t) : FaultInv t := by
  obtain ⟨_, rfl⟩ | ⟨_, _, ⟨r, h, rest, _, rfl⟩ | ⟨i, rest, _, he⟩⟩ := step_next hs
  · exact ⟨reset_faultInv.none_without_fault, nofun⟩
  · exact raiseFault_faultInv (rejectCause_mem r) _ _
  · obtain ⟨hf, ⟨c, hc, rfl⟩ | ⟨u, ws, hb, rfl⟩⟩ := exec_next he
    · exact raiseFault_faultInv (bodyOf_error_mem (hinv.with_input rest) hc) _ _
    · have hu := bodyOf_sameInterface hb
      obtain ⟨hcause, hhdr⟩ := hfi.none_without_fault hf
      exact ⟨fun _ => ⟨hu.cause.trans hcause, hu.faultHdr.trans hhdr⟩,
        fun h => absurd (h.symm.trans (hu.fault.trans hf)) (by decide)⟩

/-! ### SEED's unused bits (R23) -/

theorem seedView_high {op : SeedOperand} (hv : op.variant = .mur32) : (seedView op).extractLsb' 32 96 = 0 := by
  cases op with
  | mur32 _ s => exact high_zeroExtend s
  | _ => cases hv

theorem bodyOf_seedInv {i : Instr} {s t : State} {ws : List Word} (hseed : SeedInv s) (h : bodyOf i s = .ok (t, ws)) :
    SeedInv t := by
  unfold SeedInv
  by_cases hi : ∃ op, i = .init op
  · obtain ⟨op, rfl⟩ := hi
    cases h
    exact seedView_high
  · obtain ⟨hv, hs⟩ := bodyOf_variant_seed (not_exists.mp hi) h
    rw [hv, hs]
    exact hseed

theorem step_seedInv {s t : State} (hseed : SeedInv s) (hs : step s = .next t) : SeedInv t := by
  obtain ⟨_, rfl⟩ | ⟨_, _, ⟨r, h, rest, _, rfl⟩ | ⟨i, rest, _, he⟩⟩ := step_next hs
  · exact fun _ => zero_high
  · exact hseed
  · obtain ⟨_, ⟨c, _, rfl⟩ | ⟨u, ws, hb, rfl⟩⟩ := exec_next he
    · exact hseed
    · have hu : SeedInv u := bodyOf_seedInv (s := { s with input := rest }) hseed hb
      exact hu

/-! ### The bytes of BUF that no rule reads (R26) -/

theorem active_of_phaseCheck_put {d : List Byte} {p : Phase} (h : phaseCheck (.put d) p = none) : p = .active := by
  cases p with
  | active => rfl
  | idle => cases h
  | finished => cases h

theorem active_of_phaseCheck_finish {p : Phase} (h : phaseCheck .finish p = none) : p = .active := by
  cases p with
  | active => rfl
  | idle => cases h
  | finished => cases h

/-- Two answers alike: next states that agree but for such bytes, or the same stop. -/
def AnswersAgree (a b : Answer) : Prop :=
  (∀ s, a = .next s → ∃ t, b = .next t ∧ AgreeButStale s t) ∧ (∀ r, a = .fault r → b = .fault r) ∧
    (∀ r, a = .refused r → b = .refused r)

theorem answersAgree_next {s t : State} (h : AgreeButStale s t) : AnswersAgree (.next s) (.next t) :=
  ⟨fun _ hs => Host.Outcome.next.inj hs ▸ ⟨t, rfl, h⟩, nofun, nofun⟩

theorem answersAgree_refl (a : Answer) : AnswersAgree a a :=
  ⟨fun s hs => ⟨s, hs, rfl, rfl⟩, fun _ h => h, fun _ h => h⟩

/-- Two bodies alike: the same cause, or states that agree but for such bytes, and the same data words. -/
def BodiesAgree (a b : Body) : Prop :=
  (∃ c, a = .error c ∧ b = .error c) ∨ ∃ s t ws, a = .ok (s, ws) ∧ b = .ok (t, ws) ∧ AgreeButStale s t

namespace AgreeButStale
variable {s t : State} (h : AgreeButStale s t)
include h

theorem phase : t.phase = s.phase := (congrArg State.phase h.1 :)
theorem variant : t.variant = s.variant := (congrArg State.variant h.1 :)
theorem buflen : t.buflen = s.buflen := (congrArg State.buflen h.1 :)
theorem mixphase : t.mixphase = s.mixphase := (congrArg State.mixphase h.1 :)
theorem fault : t.fault = s.fault := (congrArg State.fault h.1 :)
theorem input : t.input = s.input := (congrArg State.input h.1 :)
theorem resetLine : t.resetLine = s.resetLine := (congrArg State.resetLine h.1 :)
theorem bw : t.bw = s.bw := congrArg blockWidth h.variant

theorem buffered : t.buffered = s.buffered := by
  rw [State.buffered, h.buflen]
  exact h.2

theorem respond (ws : List Word) : AgreeButStale (Machine.respond ws s) (Machine.respond ws t) :=
  ⟨congrArg (Machine.respond ws) h.1, h.2⟩

theorem raiseFault (c : Cause) (w : Word) : AgreeButStale (Machine.raiseFault c w s) (Machine.raiseFault c w t) :=
  ⟨congrArg (Machine.raiseFault c w) h.1, h.2⟩

theorem with_input (ws : List Word) : AgreeButStale { s with input := ws } { t with input := ws } :=
  ⟨congrArg (fun u : State => { u with input := ws }) h.1, h.2⟩

theorem resetEvent : Machine.resetEvent t = Machine.resetEvent s := by
  rw [Machine.resetEvent, (congrArg State.output h.1 :), Machine.resetEvent]

/-- The valid bytes of an emptied buffer are none. -/
theorem beginHash (v : Variant) : AgreeButStale (Machine.beginHash v s) (Machine.beginHash v t) :=
  ⟨congrArg (Machine.beginHash v) h.1, by simp⟩

/-- Taking bytes reads the valid bytes of BUF alone. -/
theorem absorbs {d : List Byte} {s' t' : State} (hs : Absorbs s d s') (ht : Absorbs t d t')
    (hout : s'.output = s.output ∧ t'.output = t.output) : AgreeButStale s' t' := by
  have hpend : pending t d = pending s d := congrArg (· ++ d) h.buffered
  have hk : wholeBlocks t d = wholeBlocks s d := by rw [wholeBlocks, wholeBlocks, h.buflen, h.bw]
  have hacc : t'.acc = s'.acc := by
    rw [ht.acc, hs.acc, hpend, hk, h.bw, h.variant, (congrArg State.acc h.1 :)]
  have hcount : t'.count = s'.count := by rw [ht.count, hs.count, hk, h.bw, (congrArg State.count h.1 :)]
  have hbuflen : t'.buflen = s'.buflen := Fin.ext (by rw [ht.buflen, hs.buflen, h.buflen, h.bw])
  have hbuffered : t'.buffered = s'.buffered := by rw [ht.buffered, hs.buffered, hpend, hk, h.bw]
  have houtput : t'.output = s'.output := by rw [hout.1, hout.2, (congrArg State.output h.1 :)]
  refine ⟨?_, ?_⟩
  · rw [ht.frame, h.1, hs.frame, hacc, hcount, hbuflen, houtput]
  · rw [State.buffered, hbuflen] at hbuffered
    exact hbuffered

theorem finishCount : Machine.finishCount t = Machine.finishCount s := by
  rw [Machine.finishCount, h.buflen, (congrArg State.count h.1 :), Machine.finishCount]

theorem finishAcc : Machine.finishAcc t = Machine.finishAcc s := by
  simp only [Machine.finishAcc, h.finishCount, h.variant, h.buflen, h.buffered, (congrArg State.acc h.1 :)]

theorem finishDigest : Machine.finishDigest t = Machine.finishDigest s := by
  rw [Machine.finishDigest, h.finishAcc, h.variant, Machine.finishDigest]

theorem afterFinish : AgreeButStale (Machine.afterFinish s) (Machine.afterFinish t) := by
  refine ⟨?_, by simp [Machine.afterFinish]⟩
  rw [Machine.afterFinish, h.finishAcc, h.finishCount, h.finishDigest]
  exact congrArg (fun u : State => { u with
    phase := .finished
    acc := Machine.finishAcc s
    count := Machine.finishCount s
    buflen := 0
    mixphase := .finalized
    digest := Machine.finishDigest s }) h.1

theorem put (hinv : WrapperInv s) (hp : s.phase = .active) (d : List Byte) : BodiesAgree (putBody d s) (putBody d t) := by
  have hm := hinv.active_blocks hp
  obtain ⟨s', hs, hsd⟩ := putBytes_absorbs hm hinv.buflen_lt d
  obtain ⟨t', ht, htd⟩ :=
    putBytes_absorbs (s := t) (h.mixphase.trans hm) (by rw [h.buflen, h.bw]; exact hinv.buflen_lt) d
  exact .inr ⟨s', t', [], putBody_ok hp hs, putBody_ok (h.phase.trans hp) ht,
    h.absorbs hsd htd ⟨putBytes_output hs, putBytes_output ht⟩⟩

theorem finish (hinv : WrapperInv s) (hp : s.phase = .active) : BodiesAgree (finishBody s) (finishBody t) := by
  have hm := hinv.active_blocks hp
  have hs := finishBody_afterFinish hp hm hinv.buflen_lt
  have ht := finishBody_afterFinish (s := t) (h.phase.trans hp) (h.mixphase.trans hm)
    (by rw [h.buflen, h.bw]; exact hinv.buflen_lt)
  rw [h.finishDigest, h.variant] at ht
  exact .inr ⟨_, _, _, hs, ht, h.afterFinish⟩

/-- Every body reads the valid bytes of BUF alone. -/
theorem bodyOf (hinv : WrapperInv s) (i : Instr) : BodiesAgree (Machine.bodyOf i s) (Machine.bodyOf i t) := by
  cases hc : phaseCheck i s.phase with
  | some c =>
    exact .inl ⟨c, bodyOf_error_of_phaseCheck hc, bodyOf_error_of_phaseCheck (by rw [h.phase]; exact hc)⟩
  | none =>
    cases i with
    | init op =>
      have hseed : AgreeButStale { s with seed := seedView op } { t with seed := seedView op } :=
        ⟨congrArg (fun u : State => { u with seed := seedView op }) h.1, h.2⟩
      exact .inr ⟨_, _, _, rfl, rfl, hseed.beginHash op.variant⟩
    | start =>
      have hp : s.phase ≠ .idle := fun hp => by rw [hp] at hc; cases hc
      have ht := startBody_ok (s := t) (by rw [h.phase]; exact hp)
      rw [h.variant] at ht
      exact .inr ⟨_, _, _, startBody_ok hp, ht, h.beginHash s.variant⟩
    | put d => exact h.put hinv (active_of_phaseCheck_put hc) d
    | finish => exact h.finish hinv (active_of_phaseCheck_finish hc)
    | fmix32 p0 => exact .inr ⟨_, _, _, rfl, rfl, h⟩
    | fmix64 p0 p1 => exact .inr ⟨_, _, _, rfl, rfl, h⟩

theorem exec (hinv : WrapperInv s) (i : Instr) : AnswersAgree (Machine.exec i s) (Machine.exec i t) := by
  cases hf : s.fault with
  | true =>
    rw [exec_stopped hf, exec_stopped (h.fault.trans hf)]
    exact answersAgree_refl _
  | false =>
    have hft := h.fault.trans hf
    obtain ⟨c, hs, ht⟩ | ⟨s', t', ws, hs, ht, hst⟩ := h.bodyOf hinv i
    · rw [exec_error hf hs, exec_error hft ht]
      exact answersAgree_next (h.raiseFault c _)
    · rw [exec_ok hf hs, exec_ok hft ht]
      exact answersAgree_next (hst.respond _)

theorem takeCommand (hinv : WrapperInv s) : AnswersAgree (Machine.takeCommand s) (Machine.takeCommand t) := by
  rw [Machine.takeCommand, Machine.takeCommand, h.input]
  cases decode s.input with
  | noHeader => exact answersAgree_refl _
  | short => exact answersAgree_refl _
  | reject r hd rest => exact answersAgree_next ((h.with_input rest).raiseFault _ hd)
  | instr i rest => exact (h.with_input rest).exec (hinv.with_input rest) i

theorem step (hinv : WrapperInv s) : AnswersAgree (Machine.step s) (Machine.step t) := by
  rw [Machine.step, Machine.step, h.resetLine, h.fault, h.resetEvent]
  split
  · exact answersAgree_refl _
  · split
    · exact answersAgree_refl _
    · exact h.takeCommand hinv

end AgreeButStale

/-! ### The obligations -/

/-- Settles O14: the reset state has the invariants, a fault leaves what they speak of, and every body keeps them. -/
theorem stepKeepsWrapperInvariants : Obligations.StepKeepsWrapperInvariants := by
  unfold Obligations.StepKeepsWrapperInvariants
  exact fun s t hinv hs => hinv.step hs

/-- Settles O15: under the wrapper invariants a body raises no mixer-internal cause, and one that ends in a state leaves the
fault registers alone. -/
theorem stepKeepsFaultRegisters : Obligations.StepKeepsFaultRegisters := by
  unfold Obligations.StepKeepsFaultRegisters
  exact fun s t => step_faultInv

/-- Settles O33: every body reads BUF through its valid bytes. -/
theorem staleBufferBytesNeverRead : Obligations.StaleBufferBytesNeverRead := by
  unfold Obligations.StaleBufferBytesNeverRead
  exact fun s t hinv h => h.step hinv

/-- Settles O16: only INIT writes SEED and VARIANT, and it writes a seed register with no bit outside the views. -/
theorem stepKeepsUnusedSeedBitsZero : Obligations.StepKeepsUnusedSeedBitsZero := by
  unfold Obligations.StepKeepsUnusedSeedBitsZero
  exact fun s t => step_seedInv

/-- Settles O29: a fault writes its three registers; of the bodies INIT's and START's begin a hash, PUT's and FINISH's write
within their frames, the finalizers' write nothing. -/
theorem onlyNamedCommandsWrite : Obligations.OnlyNamedCommandsWrite := by
  unfold Obligations.OnlyNamedCommandsWrite
  intro i s t he isInit isPut
  obtain ⟨hf, ⟨c, _, rfl⟩ | ⟨u, ws, hb, rfl⟩⟩ := exec_next he
  case inl => simp
  case inr =>
    obtain ⟨op, rfl, rfl⟩ | ⟨rfl, _, rfl⟩ | ⟨d, rfl, _, hput⟩ | ⟨rfl, _, hfin⟩ | ⟨_, rfl⟩ := bodyOf_cases hb
    · simp [isInit, hf]
    · simp [hf]
    · obtain ⟨acc, count, buf, buflen, rfl⟩ : ∃ acc count buf buflen,
          u = { s with acc := acc, count := count, buf := buf, buflen := buflen } := ⟨_, _, _, _, putBytes_frame hput⟩
      simp [isPut, hf]
    · obtain ⟨acc, count, digest, rfl⟩ : ∃ acc count digest,
          u = { s with
            acc := acc, count := count, mixphase := .finalized, digest := digest, phase := .finished, buflen := 0 } :=
        ⟨_, _, _, (finishBody_frame hfin).2.1⟩
      simp [hf]
    · simp [hf]

/-- Settles O30: a command that leaves PHASE at FINISHED is a finalizer or faults. -/
theorem finishedAccumulatorReadOnly : Obligations.FinishedAccumulatorReadOnly := by
  unfold Obligations.FinishedAccumulatorReadOnly
  intro s t hr hs hstep ht
  obtain ⟨hr', _⟩ | ⟨_, _, ⟨r, h, rest, _, rfl⟩ | ⟨i, rest, _, he⟩⟩ := step_next hstep
  · simp [hr] at hr'
  · exact ⟨rfl, rfl, rfl, rfl, rfl⟩
  · obtain ⟨_, ⟨c, _, rfl⟩ | ⟨u, ws, hb, rfl⟩⟩ := exec_next he
    · exact ⟨rfl, rfl, rfl, rfl, rfl⟩
    · have hu : u = { s with input := rest } := bodyOf_finished hs ht hb
      subst hu
      exact ⟨rfl, rfl, rfl, rfl, rfl⟩

/-- Settles O12: the reset event writes them all. -/
theorem resetWritesEveryElement : Obligations.ResetWritesEveryElement := by
  unfold Obligations.ResetWritesEveryElement
  exact fun s hr => ⟨_, step_reset hr, rfl, rfl, rfl, rfl, rfl, rfl, rfl, rfl, rfl, rfl, rfl, rfl, rfl⟩

/-- Settles O13: the step that takes the reset, and the three invariants of the state after it. -/
theorem resetStateMeetsInvariants : Obligations.ResetStateMeetsInvariants := by
  unfold Obligations.ResetStateMeetsInvariants
  exact ⟨fun s hr => step_reset hr, reset_wrapperInv, reset_faultInv, fun _ => zero_high⟩

end Sys2Proof.Machine

/-! SUPPORT. Command sequences (20_memory.md R60): no command reads the words that wait, so a stream of steps is a sequence of
commands; PUTs in a row, START after INIT (90_conflicts.md C6), and instances side by side (20_memory.md R63). -/

namespace Sys2Proof.Machine

/-! ### No command reads the words that wait -/

/-- The state with other words waiting. -/
def State.withInput (w : List Word) (s : State) : State := { s with input := w }

section withInput
variable (w : List Word) (s : State)

@[simp] theorem withInput_phase : (s.withInput w).phase = s.phase := rfl
@[simp] theorem withInput_buf : (s.withInput w).buf = s.buf := rfl
@[simp] theorem withInput_buflen : (s.withInput w).buflen = s.buflen := rfl
@[simp] theorem withInput_mixphase : (s.withInput w).mixphase = s.mixphase := rfl
@[simp] theorem withInput_bw : (s.withInput w).bw = s.bw := rfl
@[simp] theorem withInput_buffered : (s.withInput w).buffered = s.buffered := rfl
@[simp] theorem appendBytes_withInput (bs : List Byte) :
    appendBytes bs (s.withInput w) = (appendBytes bs s).withInput w := rfl

theorem mixBlock_withInput (b : List Byte) : mixBlock b (s.withInput w) = (mixBlock b s).map (State.withInput w) := by
  by_cases hm : s.mixphase = .blocks
  · rw [mixBlock_ok hm, mixBlock_ok (s := s.withInput w) hm]
    rfl
  · rw [mixBlock_error hm, mixBlock_error (s := s.withInput w) hm]
    rfl

theorem fillBuffer_withInput (d : List Byte) :
    fillBuffer d (s.withInput w) = (fillBuffer d s).map (Prod.map (State.withInput w) id) := by
  simp only [fillBuffer, withInput_buflen, withInput_bw, appendBytes_withInput, withInput_buf, mixBlock_withInput]
  split_ifs
  · rfl
  · cases mixBlock _ (appendBytes _ s) <;> rfl
  · rfl

theorem forwardBlocks_withInput (fuel : Nat) (d : List Byte) :
    forwardBlocks fuel d (s.withInput w) = (forwardBlocks fuel d s).map (Prod.map (State.withInput w) id) := by
  induction fuel generalizing d s with
  | zero => rfl
  | succ fuel ih =>
    simp only [forwardBlocks, withInput_bw, mixBlock_withInput]
    split_ifs
    · cases mixBlock (d.take s.bw) s with
      | error c => rfl
      | ok t => exact ih t _
    · rfl

theorem putBytes_withInput (d : List Byte) : putBytes d (s.withInput w) = (putBytes d s).map (State.withInput w) := by
  rw [putBytes, putBytes, fillBuffer_withInput]
  cases fillBuffer d s with
  | error c => rfl
  | ok r =>
    simp only [Except.map, Prod.map, id, forwardBlocks_withInput]
    cases forwardBlocks r.2.length r.2 r.1 <;> rfl

theorem mixTail_withInput (t : List Byte) : mixTail t (s.withInput w) = (mixTail t s).map (State.withInput w) := by
  by_cases hm : s.mixphase = .blocks
  · by_cases hl : t.length < s.bw
    · rw [mixTail_ok hm hl, mixTail_ok (s := s.withInput w) hm hl]
      rfl
    · have hl := Nat.le_of_not_lt hl
      rw [mixTail_tooLong hm hl, mixTail_tooLong (s := s.withInput w) hm hl]
      rfl
  · rw [mixTail_notAccepted hm, mixTail_notAccepted (s := s.withInput w) hm]
    rfl

theorem takeTail_withInput : takeTail (s.withInput w) = (takeTail s).map (State.withInput w) := by
  simp only [takeTail, withInput_buflen, withInput_buffered, mixTail_withInput, apply_ite (Except.map (State.withInput w))]
  rfl

theorem mixFinalize_withInput : mixFinalize (s.withInput w) = (mixFinalize s).map (State.withInput w) := by
  by_cases hm : s.mixphase = .finalized
  · rw [mixFinalize_error hm, mixFinalize_error (s := s.withInput w) hm]
    rfl
  · rw [mixFinalize_ok hm, mixFinalize_ok (s := s.withInput w) hm]
    rfl

theorem finalizeHash_withInput : finalizeHash (s.withInput w) = (finalizeHash s).map (State.withInput w) := by
  rw [finalizeHash, finalizeHash, takeTail_withInput]
  cases takeTail s with
  | error c => rfl
  | ok t => exact mixFinalize_withInput w t

theorem deliverDigest_withInput :
    deliverDigest (s.withInput w) = (deliverDigest s).map (Prod.map (State.withInput w) id) := by
  simp only [deliverDigest, mixGetBytes, withInput_mixphase]
  cases s.mixphase <;> rfl

/-- Every body carries the words that wait along. -/
theorem bodyOf_withInput (i : Instr) :
    bodyOf i (s.withInput w) = (bodyOf i s).map (Prod.map (State.withInput w) id) := by
  cases i with
  | start =>
    simp only [bodyOf, startBody, withInput_phase]
    cases s.phase <;> rfl
  | put d =>
    simp only [bodyOf, putBody, withInput_phase, putBytes_withInput]
    cases s.phase with
    | active => cases putBytes d s <;> rfl
    | idle => rfl
    | finished => rfl
  | finish =>
    simp only [bodyOf, finishBody, withInput_phase, finalizeHash_withInput]
    cases s.phase with
    | active =>
      cases finalizeHash s with
      | error c => rfl
      | ok t => exact deliverDigest_withInput w t
    | idle => rfl
    | finished => rfl
  | init op => rfl
  | fmix32 p0 => rfl
  | fmix64 p0 p1 => rfl

variable {w s}

/-- What a command answers with other words waiting. -/
theorem exec_withInput {i : Instr} {t : State} (he : exec i s = .next t) :
    exec i (s.withInput w) = .next (t.withInput w) := by
  have hbody := bodyOf_withInput w s i
  obtain ⟨hf, ⟨c, hb, rfl⟩ | ⟨u, ws, hb, rfl⟩⟩ := exec_next he
  · rw [hb] at hbody
    exact exec_error (s := s.withInput w) hf hbody
  · rw [hb] at hbody
    exact exec_ok (s := s.withInput w) hf hbody

end withInput

/-! ### Sequences (R60) -/

section sequences
variable {i : Instr} {is js : List Instr} {s t : State}

theorem execAll_cons (he : exec i s = .next t) : execAll (i :: is) s = execAll is t := by
  rw [execAll, he]

theorem execAll_stopped (hf : s.fault = true) : execAll (i :: is) s = .fault .stopped := by
  simp only [execAll, exec_stopped hf]

theorem execAll_append (he : execAll is s = .next t) : execAll (is ++ js) s = execAll js t := by
  induction is generalizing s with
  | nil =>
    cases he
    rfl
  | cons i is ih =>
    rw [execAll] at he
    split at he
    · next u hu => rw [List.cons_append, execAll_cons hu, ih he]
    · cases he
    · cases he

/-- A property that every command of a sequence keeps holds after it. -/
theorem execAll_induction {P : State → Prop} (hstep : ∀ i ∈ is, ∀ u v, P u → exec i u = .next v → P v)
    (hs : P s) (he : execAll is s = .next t) : P t := by
  induction is generalizing s with
  | nil =>
    cases he
    exact hs
  | cons i is ih =>
    rw [execAll] at he
    split at he
    · next u hu =>
      exact ih (fun j hj => hstep j (List.mem_cons_of_mem _ hj)) (hstep i List.mem_cons_self s u hs hu) he
    · cases he
    · cases he

end sequences

section run
variable {M : Host.Core} {s t : M.State}

theorem run_next (hs : M.step s = .next t) (k : Nat) : M.run (k + 1) s = M.run k t := by
  rw [Host.Core.run, hs]

theorem run_fault {r : M.Fault} (hs : M.step s = .fault r) (k : Nat) : M.run (k + 1) s = .fault r := by
  rw [Host.Core.run, hs]

end run

/-- As many steps as commands perform the sequence, also from a faulted block, which stops at once either way. -/
theorem run_encodeAll {is : List Instr} {s : State} {rest : List Word} (hr : s.resetLine = false)
    (hw : ∀ i ∈ is, i.wf = true) (hi : s.input = encodeAll is ++ rest) :
    Host.Core.run core is.length s = execAll is (s.withInput rest) := by
  induction is generalizing s with
  | nil => exact congrArg (fun w => Host.Outcome.next (s.withInput w)) hi
  | cons i is ih =>
    rw [List.length_cons]
    cases hf : s.fault with
    | true =>
      rw [execAll_stopped (s := s.withInput rest) hf]
      exact run_fault (M := core) (step_stopped hr hf) is.length
    | false =>
      have hi' : s.input = encode i ++ (encodeAll is ++ rest) := by
        rw [hi, encodeAll, List.flatMap_cons, List.append_assoc, encodeAll]
      obtain ⟨t, ht⟩ := exec_total (s := s.withInput (encodeAll is ++ rest)) hf i
      obtain ⟨htin, htr⟩ := exec_interface ht
      have hstep : step s = .next t := (step_encode hr hf (hw i List.mem_cons_self) hi').trans ht
      have hrest : exec i (s.withInput rest) = .next (t.withInput rest) :=
        exec_withInput (s := s.withInput (encodeAll is ++ rest)) ht
      rw [execAll_cons hrest]
      refine (run_next (M := core) hstep is.length).trans ?_
      exact ih (htr.trans hr) (fun j hj => hw j (List.mem_cons_of_mem _ hj)) htin

/-! ### START after INIT (C6, D28) -/

/-- What START restores from: the last INIT's variant and seeds, in a block that has been configured. -/
def Configured (v : Variant) (seed : Reg128) (s : State) : Prop := s.variant = v ∧ s.seed = seed ∧ s.phase ≠ .idle

theorem beginHash_configured (v : Variant) (ws : List Word) (s : State) :
    Configured v s.seed (respond ws (beginHash v s)) := ⟨rfl, rfl, nofun⟩

theorem exec_configured {v : Variant} {seed : Reg128} {i : Instr} {s t : State} (hi : ∀ op, i ≠ .init op)
    (hs : Configured v seed s) (he : exec i s = .next t) : Configured v seed t := by
  obtain ⟨_, ⟨c, _, rfl⟩ | ⟨u, ws, hb, rfl⟩⟩ := exec_next he
  · exact hs
  · obtain ⟨hv, hseed, hp⟩ := hs
    obtain ⟨hv', hseed'⟩ := bodyOf_variant_seed hi hb
    exact ⟨hv'.trans hv, hseed'.trans hseed, bodyOf_phase_ne_idle (t := u) hp hb⟩

/-! ### PUTs in a row, FINISH -/

/-- The block takes bytes: ACTIVE without a fault, its mixer accepting blocks and its buffer not full. -/
structure Feeding (s : State) : Prop where
  fault : s.fault = false
  phase : s.phase = .active
  mixphase : s.mixphase = .blocks
  buflen_lt : s.buflen.val < s.bw

theorem WrapperInv.feeding {s : State} (hinv : WrapperInv s) (hf : s.fault = false) (hp : s.phase = .active) :
    Feeding s := ⟨hf, hp, hinv.active_blocks hp, hinv.buflen_lt⟩

theorem Absorbs.feeding {s t : State} {d : List Byte} (h : Absorbs s d t) (hs : Feeding s) : Feeding t :=
  ⟨h.fault.trans hs.fault, h.phase.trans hs.phase, h.mixphase.trans hs.mixphase, h.buflen_lt⟩

/-- FINISH's count and accumulator depend on the bytes taken alone. -/
theorem Absorbs.finish_congr {s t u : State} {d : List Byte} (ht : Absorbs s d t) (hu : Absorbs s d u) :
    finishCount t = finishCount u ∧ finishAcc t = finishAcc u ∧ finishDigest t = finishDigest u := by
  have hcount : finishCount t = finishCount u := by
    rw [finishCount, finishCount, ht.count, hu.count, ht.buflen, hu.buflen]
  have hacc : finishAcc t = finishAcc u := by
    simp only [finishAcc, hcount, ht.variant, hu.variant, ht.buflen, hu.buflen, ht.acc, hu.acc, ht.buffered, hu.buffered]
  exact ⟨hcount, hacc, by rw [finishDigest, finishDigest, hacc, ht.variant, hu.variant]⟩

section feeding
variable {s : State} (hs : Feeding s)
include hs

/-- PUTs in a row take their bytes as one piece; each answers one status word. -/
theorem execAll_puts (parts : List (List Byte)) :
    ∃ t, execAll (parts.map .put) s = .next t ∧ Absorbs s parts.flatten t ∧
      t.output = s.output ++ List.replicate parts.length 0x00000300 := by
  induction parts generalizing s with
  | nil => exact ⟨s, rfl, absorbs_nil hs.buflen_lt, (List.append_nil _).symm⟩
  | cons d parts ih =>
    obtain ⟨t, ht, hd, hout⟩ := exec_put_absorbs hs.fault hs.phase hs.mixphase hs.buflen_lt d
    obtain ⟨u, hu, hparts, hout'⟩ := ih (hd.feeding hs)
    refine ⟨u, (execAll_cons ht).trans hu, hd.trans hparts, ?_⟩
    rw [hout', hout, List.append_assoc, List.singleton_append, List.length_cons, List.replicate_succ]

theorem exec_finish :
    exec .finish s = .next (respond (0x00000400 :: digestWords s.variant (finishDigest s)) (afterFinish s)) :=
  exec_ok (i := .finish) hs.fault (finishBody_afterFinish hs.phase hs.mixphase hs.buflen_lt)

/-- PUTs in a row, then FINISH. -/
theorem execAll_puts_finish (parts : List (List Byte)) :
    ∃ t, Absorbs s parts.flatten t ∧ t.output = s.output ++ List.replicate parts.length 0x00000300 ∧
      execAll (parts.map .put ++ [.finish]) s =
        .next (respond (0x00000400 :: digestWords s.variant (finishDigest t)) (afterFinish t)) := by
  obtain ⟨t, ht, habs, hout⟩ := execAll_puts hs parts
  refine ⟨t, habs, hout, ?_⟩
  rw [execAll_append ht, execAll_cons (exec_finish (habs.feeding hs)), habs.variant, execAll]

end feeding

/-! ### Instances (R62, R63) -/

theorem stepAttached_next {a b : Attached} (h : stepAttached a = .next b) :
    ∃ t, step a.block = .next t ∧ b = { hosts := 1, block := t } := by
  rw [stepAttached] at h
  split at h
  · next hhosts =>
    split at h
    · next t ht =>
      cases h
      exact ⟨t, ht, by rw [hhosts]⟩
    · cases h
    · cases h
  · cases h

/-! ### The obligations -/

/-- Settles O11, by induction on the sequence: a step performs the command at the front, and the commands behind it wait in
the input, which no command reads. -/
theorem stepsPerformTheStream : Obligations.StepsPerformTheStream := by
  unfold Obligations.StepsPerformTheStream
  exact fun is s rest hr hw hi => run_encodeAll hr hw hi

/-- Settles O46: both runs take the same bytes, whatever the pieces, and FINISH sees the bytes alone. -/
theorem partitionNeverChangesDigest : Obligations.PartitionNeverChangesDigest := by
  unfold Obligations.PartitionNeverChangesDigest
  intro s parts hinv hf hp
  have hs := hinv.feeding hf hp
  obtain ⟨cs, hputn, hflat, _⟩ := putn_split parts.flatten
  obtain ⟨t, ht, htout, hrun⟩ := execAll_puts_finish hs parts
  obtain ⟨u, hu, huout, hrun'⟩ := execAll_puts_finish hs cs
  rw [hflat] at hu
  rw [← hputn] at hrun'
  obtain ⟨hcount, hacc, hdigest⟩ := ht.finish_congr hu
  refine ⟨_, _, digestWords s.variant (finishDigest u), hrun, hrun', hdigest, hacc, hcount, ht.fault.trans hf,
    hu.fault.trans hf, ?_, ?_⟩
  · rw [← htout, ← hdigest]
    rfl
  · rw [hputn, List.length_map, ← huout]
    rfl

/-- Settles O31: VARIANT, SEED and a PHASE other than IDLE last until the START, which begins from them as INIT did. -/
theorem startRestoresWhatInitConstructed : Obligations.StartRestoresWhatInitConstructed := by
  unfold Obligations.StartRestoresWhatInitConstructed
  intro s t u op is hinit his hall hu
  obtain ⟨hf, _⟩ := exec_next hinit
  cases (exec_init hf op).symm.trans hinit
  have hconf : Configured op.variant (seedView op) u :=
    execAll_induction (fun i hi _ _ => exec_configured (his i hi))
      (beginHash_configured op.variant [0x00000100] { s with seed := seedView op }) hall
  obtain ⟨hv, hseed, hp⟩ := hconf
  have hacc : seedAcc u.variant u.seed = seedAcc op.variant (seedView op) := by rw [hv, hseed]
  exact ⟨_, exec_start hu hp, hacc, hseed, hv, rfl, rfl, rfl, rfl, rfl⟩

/-- Settles O50: a step of an instance is the block's own, and is written back at its place alone. -/
theorem instancesDoNotInteract : Obligations.InstancesDoNotInteract := by
  unfold Obligations.InstancesDoNotInteract
  intro p k
  refine ⟨fun hne => by rw [stepInstance, stepAttached, if_neg hne], fun q hq => ?_⟩
  rw [stepInstance] at hq
  split at hq
  · next a ha =>
    cases hq
    obtain ⟨t, ht, rfl⟩ := stepAttached_next ha
    exact ⟨List.length_set, fun j hj => List.getElem?_set_ne hj.symm, t, ht, List.getElem?_set_self k.isLt⟩
  · cases hq
  · cases hq

end Sys2Proof.Machine

/-! SUPPORT. Whole hashes: the accumulator of a byte sequence as one function of the seed register, its digest bytes as the
reference hash of each variant (41_mixer32.md R137, 42_mixer128_x86.md R156, 43_mixer128_x64.md R176), and HASH, REHASH and
the empty input performed (30_encoding.md R87, 45_digest_serializer.md section 2). -/

namespace Sys2Proof

/-! ### The words of a value on a byte-serial link (R82) -/

theorem linkBytes_append (ws vs : List Word) : linkBytes (ws ++ vs) = linkBytes ws ++ linkBytes vs :=
  List.flatMap_append

/-- The first `n` words of a value carry its first `4 n` bytes. -/
theorem linkBytes_words {w : Nat} (v : BitVec w) (n : Nat) :
    linkBytes ((List.range n).map fun j => v.extractLsb' (32 * j) 32) = bytesLe (4 * n) v := by
  induction n with
  | zero => rfl
  | succ n ih =>
    rw [List.range_succ, List.map_append, linkBytes_append, ih, List.map_singleton, linkBytes_cons, linkBytes_nil,
      List.append_nil, Nat.mul_succ, ← bytesLe_append_above v (4 * n) (n := 4) (k := 32) (by decide), ← Nat.mul_assoc]

end Sys2Proof

namespace Sys2Proof.Machine

/-- FINISH's data words carry the digest bytes (R82, R83). -/
theorem linkBytes_digestWords {v : Variant} {bs : List Byte} (h : bs.length = digestWidth v) :
    linkBytes (digestWords v (digestReg bs)) = bs := by
  have hfit : 8 * bs.length ≤ 128 := by rw [h]; cases v <;> decide
  have hwords : 4 * (digestWidth v / 4) = bs.length := by rw [h]; cases v <;> rfl
  rw [digestWords, linkBytes_words, hwords, digestReg, bytesLe_le bs 128 hfit]

/-! ### The accumulator of a byte sequence -/

/-- ACC after a whole hash of `S` from the seeded `acc`: every block, the tail, finalization. -/
def hashAcc (v : Variant) (acc : Reg128) (S : List Byte) : Reg128 :=
  finalAcc v (BitVec.ofNat 64 S.length)
    (tailAcc v (tailBytes (blockWidth v) S)
      (foldBlocks (blockWidth v) (blockAcc v) (S.length / blockWidth v) S acc))

/-- A view that each block's update respects is respected by the blocks in order. -/
theorem foldBlocks_view {α β : Type} {view : α → β} {mix : List Byte → α → α} {mixView : List Byte → β → β}
    (h : ∀ b a, view (mix b a) = mixView b (view a)) (bw k : Nat) (S : List Byte) (a : α) :
    view (foldBlocks bw mix k S a) = foldBlocks bw mixView k S (view a) := by
  induction k generalizing S a with
  | zero => rfl
  | succ k ih => rw [foldBlocks_succ, foldBlocks_succ, ih, h]

section views
variable (acc : Reg128) (S : List Byte)

theorem digestBytes_hashAcc_mur32 : digestBytes .mur32 (hashAcc .mur32 acc S) = mur32Hash (mur32View acc) S := by
  have hblocks := foldBlocks_view (view := mur32View) (mix := blockAcc .mur32) (fun _ _ => mur32View_write _ _)
    4 (S.length / 4) S acc
  simp only [digestBytes, hashAcc, finalAcc, tailAcc, blockWidth, mur32View_write, hblocks, mur32Hash]

theorem digestBytes_hashAcc_x86 : digestBytes .x86 (hashAcc .x86 acc S) = x86Hash (x86View acc) S := by
  have hblocks := foldBlocks_view (view := x86View) (mix := blockAcc .x86) (fun _ _ => x86View_pack _)
    16 (S.length / 16) S acc
  simp only [digestBytes, hashAcc, finalAcc, tailAcc, blockWidth, x86View_pack, hblocks, x86Hash]

theorem digestBytes_hashAcc_x64 : digestBytes .x64 (hashAcc .x64 acc S) = x64Hash (x64View acc) S := by
  have hblocks := foldBlocks_view (view := x64View) (mix := blockAcc .x64) (fun _ _ => x64View_pack _)
    16 (S.length / 16) S acc
  simp only [digestBytes, hashAcc, finalAcc, tailAcc, blockWidth, x64View_pack, hblocks, x64Hash]

end views

/-- The digest bytes of a whole hash from an operand's seeds are the reference hash under that operand. -/
theorem digestBytes_hashAcc (op : SeedOperand) (S : List Byte) :
    digestBytes op.variant (hashAcc op.variant (seedView op) S) = referenceHash op S := by
  cases op with
  | mur32 sm s => exact (digestBytes_hashAcc_mur32 _ S).trans (congrArg (mur32Hash · S) (mur32View_zeroExtend s))
  | x86Broadcast s => exact (digestBytes_hashAcc_x86 _ S).trans (congrArg (x86Hash · S) (x86View_pack _))
  | x86PerLane s1 s2 s3 s4 => exact (digestBytes_hashAcc_x86 _ S).trans (congrArg (x86Hash · S) (x86View_pack _))
  | x64Broadcast s => exact (digestBytes_hashAcc_x64 _ S).trans (congrArg (x64Hash · S) (x64View_pack _))
  | x64PerLane s1 s2 => exact (digestBytes_hashAcc_x64 _ S).trans (congrArg (x64Hash · S) (x64View_pack _))

theorem referenceHash_length (op : SeedOperand) (S : List Byte) :
    (referenceHash op S).length = digestWidth op.variant := by
  rw [← digestBytes_hashAcc, digestBytes_length]

/-- An empty tail leaves ACC as it is, so that FINISH may fold one (R134, R153, R173). -/
theorem tailAcc_nil (v : Variant) (acc : Reg128) : tailAcc v [] acc = acc := by
  cases v with
  | mur32 => rw [tailAcc, mur32Tail_nil, mur32Write_view]
  | x86 => exact x86Pack_view acc
  | x64 => exact x64Pack_view acc

theorem finishAcc_eq_tailAcc (s : State) :
    finishAcc s = finalAcc s.variant (finishCount s) (tailAcc s.variant s.buffered s.acc) := by
  rw [finishAcc]
  split
  · next h0 =>
    have hnil : s.buffered = [] := List.eq_nil_of_length_eq_zero (by rw [buffered_length, h0])
    rw [hnil, tailAcc_nil]
  · rfl

/-! ### From a hash begun to its digest -/

/-- A hash has begun under an operand and no byte has been fed (R191, R192). -/
structure Begun (op : SeedOperand) (s : State) : Prop where
  fault : s.fault = false
  phase : s.phase = .active
  variant : s.variant = op.variant
  seed : s.seed = seedView op
  acc : s.acc = seedView op
  count : s.count = 0
  buflen : s.buflen = 0
  mixphase : s.mixphase = .blocks

/-- A block after a whole hash of `S` under an operand, and what it answered since `s`. -/
structure Hashed (op : SeedOperand) (S : List Byte) (s t : State) : Prop where
  fault : t.fault = false
  phase : t.phase = .finished
  variant : t.variant = op.variant
  seed : t.seed = seedView op
  count : t.count = BitVec.ofNat 64 S.length
  digest : t.digest = digestReg (referenceHash op S)
  output : t.output = s.output ++ (List.replicate (putn S).length 0x00000300 ++
    0x00000400 :: digestWords op.variant (digestReg (referenceHash op S)))

theorem beginHash_begun {op : SeedOperand} {s : State} (hf : s.fault = false) (hs : s.seed = seedView op)
    (ws : List Word) : Begun op (respond ws (beginHash op.variant s)) where
  fault := hf
  phase := rfl
  variant := rfl
  seed := hs
  acc := by rw [respond_acc, beginHash_acc, hs, seedAcc_seedView]
  count := rfl
  buflen := rfl
  mixphase := rfl

namespace Begun
variable {op : SeedOperand} {s : State} (hs : Begun op s)
include hs

theorem feeding : Feeding s := ⟨hs.fault, hs.phase, hs.mixphase, by rw [hs.buflen]; exact bw_pos s⟩

theorem bw : s.bw = blockWidth op.variant := congrArg blockWidth hs.variant

/-- With nothing buffered the bytes to place are the bytes fed. -/
theorem pending (S : List Byte) : Machine.pending s S = S := by
  rw [Machine.pending, State.buffered, hs.buflen]
  exact congrArg (· ++ S) (bufRead_zero s.buf)

theorem wholeBlocks (S : List Byte) : Machine.wholeBlocks s S = S.length / blockWidth op.variant := by
  rw [Machine.wholeBlocks, hs.buflen, hs.bw]
  exact congrArg (· / blockWidth op.variant) (Nat.zero_add _)

variable {S : List Byte} {t : State} (ht : Absorbs s S t)
include ht

/-- Whole blocks and tail are all the bytes. -/
theorem finishCount : Machine.finishCount t = BitVec.ofNat 64 S.length := by
  have hlen : blockWidth op.variant * (S.length / blockWidth op.variant) + (0 + S.length) % blockWidth op.variant =
      S.length := by rw [Nat.zero_add]; exact Nat.div_add_mod _ _
  rw [Machine.finishCount, ht.count, ht.buflen, hs.count, hs.buflen, hs.wholeBlocks, hs.bw, BitVec.ofNat_eq_ofNat,
    BitVec.zero_add, ← BitVec.ofNat_add]
  exact congrArg (BitVec.ofNat 64) hlen

theorem finishAcc : Machine.finishAcc t = hashAcc op.variant (seedView op) S := by
  have hbuffered : t.buffered = tailBytes (blockWidth op.variant) S := by
    rw [ht.buffered, hs.pending, hs.wholeBlocks, hs.bw, tailBytes]
  rw [finishAcc_eq_tailAcc, hs.finishCount ht, hbuffered, ht.acc, ht.variant, hs.variant, hs.acc, hs.pending,
    hs.wholeBlocks, hs.bw, hashAcc]

theorem finishDigest : Machine.finishDigest t = digestReg (referenceHash op S) := by
  rw [Machine.finishDigest, hs.finishAcc ht, ht.variant, hs.variant, digestBytes_hashAcc]

end Begun

/-- PUTN and FINISH after a hash has begun. -/
theorem execAll_putn_finish {op : SeedOperand} {s : State} (hs : Begun op s) (S : List Byte) :
    ∃ t, execAll (putn S ++ [.finish]) s = .next t ∧ Hashed op S s t := by
  obtain ⟨cs, hputn, hflat, _⟩ := putn_split S
  obtain ⟨t, ht, hout, hrun⟩ := execAll_puts_finish hs.feeding cs
  rw [hflat] at ht
  have hdigest := hs.finishDigest ht
  rw [hs.variant, hdigest, ← hputn] at hrun
  refine ⟨_, hrun, ht.fault.trans hs.fault, rfl, ht.variant.trans hs.variant, ht.seed.trans hs.seed,
    hs.finishCount ht, hdigest, ?_⟩
  rw [hputn, List.length_map, ← List.append_assoc, ← hout]
  rfl

/-- HASH, from any state without a fault. -/
theorem execAll_hashCommands {s : State} (hf : s.fault = false) (op : SeedOperand) (S : List Byte) :
    ∃ t, execAll (hashCommands op S) s = .next t ∧ Hashed op S { s with output := s.output ++ [0x00000100] } t := by
  obtain ⟨t, ht, h⟩ := execAll_putn_finish
    (beginHash_begun (op := op) (s := { s with seed := seedView op }) hf rfl [0x00000100]) S
  exact ⟨t, (execAll_cons (exec_init hf op)).trans ht, h.fault, h.phase, h.variant, h.seed, h.count, h.digest, h.output⟩

/-- REHASH, from any state that a hash under the operand has left. -/
theorem execAll_rehashCommands {op : SeedOperand} {S : List Byte} {s t : State} (h : Hashed op S s t) (T : List Byte) :
    ∃ u, execAll (rehashCommands T) t = .next u ∧ Hashed op T { t with output := t.output ++ [0x00000200] } u := by
  obtain ⟨u, hu, h'⟩ := execAll_putn_finish (beginHash_begun h.fault h.seed [0x00000200]) T
  have hstart := exec_start h.fault (by rw [h.phase]; decide)
  rw [h.variant] at hstart
  exact ⟨u, (execAll_cons hstart).trans hu, h'.fault, h'.phase, h'.variant, h'.seed, h'.count, h'.digest, h'.output⟩

/-! ### The empty input under seed 0 -/

/-- Finalization of a zero accumulator with count 0 is 0: every finalizer fixes 0. -/
theorem finalAcc_zero (v : Variant) : finalAcc v 0 0 = 0 := by cases v <;> decide

theorem digestBytes_zero (v : Variant) : digestReg (digestBytes v 0) = 0 := by cases v <;> decide

theorem digestWords_zero (v : Variant) : digestWords v 0 = List.replicate (digestWidth v / 4) 0 := by
  cases v <;> decide

theorem Begun.finishDigest_zero {op : SeedOperand} {s : State} (hs : Begun op s) (h0 : seedView op = 0) :
    Machine.finishDigest s = 0 := by
  have hacc : Machine.finishAcc s = finalAcc op.variant 0 0 := by
    rw [Machine.finishAcc, Machine.finishCount, hs.buflen, hs.count, hs.acc, hs.variant, h0]
    rfl
  rw [Machine.finishDigest, hacc, finalAcc_zero, digestBytes_zero]

/-! ### The obligations -/

/-- Settles O47: INIT begins a hash under its operand, the PUTs take the bytes, and FINISH's accumulator viewed by the variant
is the reference hash's. -/
theorem hashAnswersReferenceDigest : Obligations.HashAnswersReferenceDigest := by
  unfold Obligations.HashAnswersReferenceDigest
  intro s op S hf
  obtain ⟨t, ht, h⟩ := execAll_hashCommands hf op S
  refine ⟨t, _, ht, h.fault, h.phase, h.count, h.digest, ?_, linkBytes_digestWords (referenceHash_length op S)⟩
  rw [h.output, List.append_assoc, List.singleton_append]

/-- Settles O48: HASH leaves the operand's seeds and variant, from which START begins. -/
theorem rehashAnswersReferenceDigest : Obligations.RehashAnswersReferenceDigest := by
  unfold Obligations.RehashAnswersReferenceDigest
  intro s t op S T hrun
  cases hf : s.fault with
  | true => cases (execAll_stopped hf).symm.trans hrun
  | false =>
    obtain ⟨t', ht', h⟩ := execAll_hashCommands hf op S
    cases ht'.symm.trans hrun
    obtain ⟨u, hu, h'⟩ := execAll_rehashCommands h T
    exact ⟨u, hu, h'.fault, h'.digest⟩

/-- Settles O49: with nothing fed FINISH finalizes a zero accumulator with count 0. -/
theorem emptyInputZeroDigest : Obligations.EmptyInputZeroDigest := by
  unfold Obligations.EmptyInputZeroDigest
  intro s op hf h0
  have hbegun := beginHash_begun (op := op) (s := { s with seed := seedView op }) hf rfl [0x00000100]
  have hdigest := hbegun.finishDigest_zero h0
  have hfinish := exec_finish hbegun.feeding
  rw [hdigest, hbegun.variant, digestWords_zero] at hfinish
  refine ⟨_, (execAll_cons (exec_init hf op)).trans (execAll_cons hfinish), hdigest, ?_⟩
  simp [afterFinish]

end Sys2Proof.Machine
